-- ==== Sys2Proof/Word.lean ====
section
/-! DEFINITION. The word types of the block (00_scope.md rules R7, R9) and nothing else. -/

namespace Sys2Proof

/-- A 32-bit unsigned word (R7, R9). -/
abbrev Word := BitVec 32

/-- A byte (R9). -/
abbrev Byte := BitVec 8

/-- A byte offset in the 64-byte register window (R35, R38). -/
abbrev Offset := BitVec 6

/-- The 7-bit access word `{DIR, OFF[5:0]}` of 30_encoding.md rule R76. -/
abbrev AccessWord := BitVec 7

end Sys2Proof
end

