-- ==== Sys2Proof/Syntax.lean ====
section
/-! DEFINITION. The instructions: one constructor for each row of spec/opcode_table.json (30_encoding.md rules
R71, R73, R76), the commands alone, and the encoded form in which an instruction reaches the block. -/

namespace Sys2Proof

/-- The direction bit DIR of an access word (R76). -/
inductive Dir where
  | read
  | write
deriving DecidableEq, Repr

/-- The width of a host access; only 32 bits is admitted (R57, "8, 16 or 64 bits" are not). DESIGN CHOICE (log 13). -/
inductive Width where
  | w8
  | w16
  | w32
  | w64
deriving DecidableEq, Repr

/-- A command, as decoded from a word written to CMD (R71, R73). -/
inductive Command where
  | nop
  | init
  /-- ABSORB of CNT + 1 bytes (R72). -/
  | absorb (cnt : BitVec 2)
  | final
  | clrerr
  /-- Every word that is not one of the eight legal ones (R73, R193). -/
  | illegal (w : Word)
deriving DecidableEq, Repr

/-- The instructions of the block: the six command rows and the eleven host access rows of the opcode table. -/
inductive Instr where
  /-- NOP (R191). -/
  | nop
  /-- INIT (R171). -/
  | init
  /-- ABSORB, `cnt` + 1 bytes of DATA (R108). -/
  | absorb (cnt : BitVec 2)
  /-- FINAL (R109). -/
  | final
  /-- CLRERR (R192). -/
  | clrerr
  /-- ILLEGAL: any other word `w` written to CMD (R193). -/
  | illegal (w : Word)
  /-- WR CMD: deliver the command word `w` (R190). -/
  | wrCmd (w : Word)
  /-- WR DATA: DATA <- `v` (R195). -/
  | wrData (v : Word)
  /-- WR (ignored): a write of `v` to a read-only or reserved offset (R200). -/
  | wrIgnored (off : Offset) (v : Word)
  /-- RD CMD (R199). -/
  | rdCmd
  /-- RD STATUS (R194). -/
  | rdStatus
  /-- RD DATA (R196). -/
  | rdData
  /-- RD LEN_LO (R197). -/
  | rdLenLo
  /-- RD LEN_HI (R198). -/
  | rdLenHi
  /-- RD ACCn, n = OFF[3:2] (R175). -/
  | rdAcc (n : BitVec 2)
  /-- RD (reserved): a read of a reserved offset (R200). -/
  | rdReserved (off : Offset)
  /-- BusError: a misaligned or non-32-bit access; `v` is what its data lanes carried (R57). -/
  | busError (dir : Dir) (off : Offset) (width : Width) (v : Word)
deriving DecidableEq, Repr

/-- The instruction a command stands for. -/
def Command.toInstr : Command → Instr
  | .nop => .nop
  | .init => .init
  | .absorb cnt => .absorb cnt
  | .final => .final
  | .clrerr => .clrerr
  | .illegal w => .illegal w

/-- The two encoded kinds of R70, as the host issues them. -/
inductive HostOp where
  /-- A command word in the format CMDW, the statement `cmd <imm32>` of R77: a 32-bit write of `w` to CMD.
  DEDUCED (log 11). -/
  | command (w : Word)
  /-- A host access: its access word (R76), its width (R57), and the word on the data lanes (R55). -/
  | access (aw : AccessWord) (width : Width) (v : Word)
deriving DecidableEq, Repr

/-- The registers an assembler statement may name (R35, R77). -/
inductive Reg where
  | cmd
  | status
  | data
  | lenLo
  | lenHi
  | acc0
  | acc1
  | acc2
  | acc3
deriving DecidableEq, Repr

end Sys2Proof
end

