-- ==== Sys2Proof/WellFormed.lean ====
section
/-! DEFINITION. Which terms of Instr stand for a row of the opcode table: the operand checks of 30_encoding.md rules
R73 and R76, written from the lists of the table and not from the decoder. -/

namespace Sys2Proof

/-- The eight legal command words of the table of R73. -/
def legalWords : List Word :=
  [0x00000000, 0x10000000, 0x20000000, 0x21000000, 0x22000000, 0x23000000, 0x30000000, 0x40000000]

/-- The offsets of the row WR (ignored): every aligned offset but CMD's and DATA's (R200, opcode table). -/
def ignoredOffsets : List Offset :=
  [0x04, 0x0C, 0x10, 0x14, 0x18, 0x1C, 0x20, 0x24, 0x28, 0x2C, 0x30, 0x34, 0x38, 0x3C]

/-- The offsets of the row RD (reserved) (R35, R200, opcode table). -/
def reservedOffsets : List Offset :=
  [0x0C, 0x18, 0x1C, 0x30, 0x34, 0x38, 0x3C]

/-- The operand checks, one for each constructor that has any. -/
def Instr.wf : Instr → Bool
  | .illegal w => !legalWords.contains w
  | .wrIgnored off _ => ignoredOffsets.contains off
  | .rdReserved off => reservedOffsets.contains off
  | .busError _ off width _ => off.toNat % 4 != 0 || width != .w32
  | .nop | .init | .absorb _ | .final | .clrerr | .wrCmd _ | .wrData _ => true
  | .rdCmd | .rdStatus | .rdData | .rdLenLo | .rdLenHi | .rdAcc _ => true

end Sys2Proof
end

