-- ==== Sys2Proof/Decode.lean ====
section
/-! DEFINITION. The byte lanes of the bus (20_memory.md rule R55), the formats CMDW and `{DIR, OFF}` (30_encoding.md
rules R70, R76), the decoder, and after it the encoder. Decoding an encoded form is total: every command word and
every access word has a meaning (R73, R76); only bytes that are no encoded form at all are rejected, by name. -/

namespace Sys2Proof

/-! ### Byte lanes -/

/-- Bus byte lane `j` of a word carries bits [8j+7:8j] (R9, R55). -/
def Word.lane (v : Word) (j : Nat) : Byte := v.extractLsb' (8 * j) 8

/-- The word whose lanes 0 to 3 are the four bytes (R55). -/
def Word.ofLanes (b0 b1 b2 b3 : Byte) : Word := b3 ++ b2 ++ b1 ++ b0

/-- The `n` low bytes of a number, the least significant first: the order in which the bus lays a word out (R55). -/
def leBytes : Nat → Nat → List Byte
  | 0, _ => []
  | n + 1, w => BitVec.ofNat 8 w :: leBytes n (w / 256)

/-! ### Decoder -/

/-- DIR = 1 for a write and 0 for a read (R76). -/
def Dir.ofBit (b : BitVec 1) : Dir := if b = 1#1 then .write else .read

/-- The command a word written to CMD selects: the match and mask of R73; every other word is illegal, whatever the
phase (R75). -/
def decodeCommand (w : Word) : Command :=
  if w = 0x00000000#32 then .nop
  else if w = 0x10000000#32 then .init
  else if w &&& 0xFCFFFFFF#32 = 0x20000000#32 then .absorb (w.extractLsb' 24 2)
  else if w = 0x30000000#32 then .final
  else if w = 0x40000000#32 then .clrerr
  else .illegal w

/-- An aligned 32-bit write, by its offset (R76). -/
def decodeWrite (off : Offset) (v : Word) : Instr :=
  if off = 0b000000#6 then .wrCmd v
  else if off = 0b001000#6 then .wrData v
  else .wrIgnored off v

/-- An aligned 32-bit read, by its offset (R76). -/
def decodeRead (off : Offset) : Instr :=
  if off = 0b000000#6 then .rdCmd
  else if off = 0b000100#6 then .rdStatus
  else if off = 0b001000#6 then .rdData
  else if off = 0b010000#6 then .rdLenLo
  else if off = 0b010100#6 then .rdLenHi
  else if off &&& 0b110011#6 = 0b100000#6 then .rdAcc (off.extractLsb' 2 2)
  else .rdReserved off

/-- A host access: a misaligned or non-32-bit one is a BusError before anything else is looked at (R57, R76). -/
def decodeAccess (aw : AccessWord) (width : Width) (v : Word) : Instr :=
  let dir := Dir.ofBit (aw.extractLsb' 6 1)
  let off := aw.extractLsb' 0 6
  if off.extractLsb' 0 2 ≠ 0#2 ∨ width ≠ .w32 then .busError dir off width v
  else match dir with
    | .write => decodeWrite off v
    | .read => decodeRead off

/-- The decoder: an encoded form to its instruction. -/
def decode : HostOp → Instr
  | .command w => (decodeCommand w).toInstr
  | .access aw width v => decodeAccess aw width v

/-- Why bytes are no encoded form. -/
inductive DecodeReject where
  /-- A command is exactly four bytes (R70). -/
  | commandLength
  /-- An access has at least the byte of its access word (R76). -/
  | accessEmpty
  /-- An access word has 7 bits, so bit 7 of its byte is 0 (R76). -/
  | accessBitSeven
  /-- The data lanes of an access are four bytes or none (R55). -/
  | dataLength
  /-- No encoded form has that many bits. -/
  | formLength
deriving DecidableEq, Repr

/-- A command word from its four bus lanes (R55, R70). -/
def commandOfBytes : List Byte → Except DecodeReject HostOp
  | [b0, b1, b2, b3] => .ok (.command (Word.ofLanes b0 b1 b2 b3))
  | _ => .error .commandLength

/-- The word on the data lanes; an access laid out without them carries zero. DESIGN CHOICE (log 14). -/
def dataOfBytes : List Byte → Except DecodeReject Word
  | [] => .ok 0
  | [b0, b1, b2, b3] => .ok (Word.ofLanes b0 b1 b2 b3)
  | _ => .error .dataLength

/-- A 32-bit access from the byte of its access word and its data lanes. DESIGN CHOICE (log 14). -/
def accessOfBytes : List Byte → Except DecodeReject HostOp
  | [] => .error .accessEmpty
  | a :: rest =>
    if a.extractLsb' 7 1 ≠ 0#1 then .error .accessBitSeven
    else (dataOfBytes rest).map fun v => .access (a.extractLsb' 0 7) .w32 v

/-- The encoded form that a word of the opcode table stands for, laid out in bytes and read back: 32 bits are a
command, one byte is an access word, five bytes are an access word and its data. -/
def HostOp.ofTableWord (nbits w : Nat) : Except DecodeReject HostOp :=
  if nbits = 32 then commandOfBytes (leBytes 4 w)
  else if nbits = 7 ∨ nbits = 8 then accessOfBytes (leBytes 1 w)
  else if nbits = 40 then accessOfBytes (leBytes 5 w)
  else .error .formLength

/-- The instruction the decoder reads from a word of the opcode table. -/
def decodeTableWord (nbits w : Nat) : Option Instr :=
  match HostOp.ofTableWord nbits w with
  | .ok op => some (decode op)
  | .error _ => none

/-! ### Encoder -/

/-- The bit DIR (R76). -/
def Dir.bit : Dir → BitVec 1
  | .read => 0#1
  | .write => 1#1

/-- The format CMDW, bit 31 first: OP, RSV1, CNT, RSV0 (R70). -/
def cmdw (op : BitVec 4) (rsv1 cnt : BitVec 2) (rsv0 : BitVec 24) : Word := op ++ rsv1 ++ cnt ++ rsv0

/-- The access word `{DIR, OFF}` (R76). -/
def accessWord (dir : Dir) (off : Offset) : AccessWord := dir.bit ++ off

/-- The encoder, from the opcode map of R71 and the access words of R76; a read carries zero on its data lanes. -/
def encode : Instr → HostOp
  | .nop => .command (cmdw 0x0 0 0 0)
  | .init => .command (cmdw 0x1 0 0 0)
  | .absorb cnt => .command (cmdw 0x2 0 cnt 0)
  | .final => .command (cmdw 0x3 0 0 0)
  | .clrerr => .command (cmdw 0x4 0 0 0)
  | .illegal w => .command w
  | .wrCmd w => .access (accessWord .write 0x00) .w32 w
  | .wrData v => .access (accessWord .write 0x08) .w32 v
  | .wrIgnored off v => .access (accessWord .write off) .w32 v
  | .rdCmd => .access (accessWord .read 0x00) .w32 0
  | .rdStatus => .access (accessWord .read 0x04) .w32 0
  | .rdData => .access (accessWord .read 0x08) .w32 0
  | .rdLenLo => .access (accessWord .read 0x10) .w32 0
  | .rdLenHi => .access (accessWord .read 0x14) .w32 0
  | .rdAcc n => .access (accessWord .read ((0b10#2 ++ n) ++ 0b00#2)) .w32 0
  | .rdReserved off => .access (accessWord .read off) .w32 0
  | .busError dir off width v => .access (accessWord dir off) width v

/-- An encoded form as the host issues it: an aligned 32-bit read carries nothing on its data lanes. -/
def HostOp.canonical : HostOp → Bool
  | .command _ => true
  | .access aw width v =>
    aw.extractLsb' 6 1 == 1#1 || aw.extractLsb' 0 2 != 0#2 || width != .w32 || v == 0

end Sys2Proof
end

