-- ==== Sys2Proof/Config.lean ====
section
/-! DEFINITION. What an implementation or a platform fixes: the window's size, the placement of an
instance (BASE, D33), and the schedule that stands for the open parameter BUSY_LATENCY (D20, U4, U5). -/

namespace Sys2Proof.Config

/-- The register window is 64 bytes (R8, R35, R50). -/
def windowBytes : Nat := 64

/-- A block is 64 bytes (R7). -/
def blockBytes : Nat := 64

/-- Where an instance's window stands in the host's address map: the open parameter BASE (R50, D33). -/
structure Placement where
  base : Nat
deriving DecidableEq, Repr

/-- BASE is a multiple of 64 (R50). -/
def Placement.wf (p : Placement) : Bool := p.base % windowBytes == 0

/-- Who moves in one step. A finite list of these, held in State, is one interleaving of the two agents
of R6 and R258 with the outside world's reset input (R250); every list is admitted (U5). -/
inductive Turn where
  /-- The host's oldest access that is not yet accepted is tried (R59). -/
  | host
  /-- The compression engine makes one transition (R148). -/
  | engine
  /-- The reset input is asserted (R250, R251). -/
  | resetOn
  /-- The reset input is released (U9). -/
  | resetOff
deriving DecidableEq, Repr

end Sys2Proof.Config
end

