-- ==== Sys2Proof/Machine/State.lean ====
section
/-! DEFINITION. The state of one instance: every piece of 10_state.md, beside it what the host's side of the bus
holds (accesses not yet accepted, the last bus response, the reset input) and the schedule; and the state after
reset (70_reset_and_hazards.md rule R250). -/

namespace Sys2Proof.Machine

/-- PHASE (R31). The value 3 never occurs, so the type has no place for it (U6). -/
inductive Phase where
  | idle
  | absorb
  | done
deriving DecidableEq, Repr

/-- ENG, the engine's control state (R25). -/
inductive Eng where
  | idle
  | run
  | ff
deriving DecidableEq, Repr

/-- ERRCODE (R220). The values 3..15 are never recorded, so the type has no place for them (U6). -/
inductive ErrCode where
  | noError
  | illegal
  | badPhase
deriving DecidableEq, Repr

/-- Four 32-bit words: the accumulator A, B, C, D (R20) or the working registers W.a, W.b, W.c, W.d (R23). -/
structure Quad where
  a : Word
  b : Word
  c : Word
  d : Word
deriving DecidableEq, Repr

/-- Why an access ended with a fault of the access (U1, U10); the block itself goes on. -/
inductive AccessFault where
  /-- A read of ACC0..ACC3 in PHASE = IDLE: the reading program's fault, the read has no value (R176). Log 5. -/
  | accHasNoValue
  /-- The error response of a misaligned or non-32-bit access at the offset (R57, R224). Log 6. -/
  | busError (off : Offset)
deriving DecidableEq, Repr

/-- The bus response that completes an access (R11, R57). -/
inductive Response where
  /-- A write has been accepted. DESIGN CHOICE (log 21). -/
  | written
  /-- A read returns a word. -/
  | value (v : Word)
  /-- The access ended with a fault. -/
  | fault (f : AccessFault)
deriving DecidableEq, Repr

/-- Reasons for the machine to stop with a fault. There is none: the core has no failure modes (R100, R129, C6), every
command word and every access has a defined outcome (93_implementation_defined.md), and a fault of a host access is
an AccessFault in its response. Nothing raises it. -/
inductive Fault where
deriving DecidableEq, Repr

/-- Reasons for which an instruction has no meaning. -/
inductive Refusal where
  /-- Raised by an arm of exec for an instruction without a meaning; no arm does so. Safe. -/
  | notModelled (mnemonic : String)
deriving DecidableEq, Repr

structure State where
  /-- ACC[0..3] (R20). -/
  acc : Quad
  /-- The engine's working registers W.a..W.d (R23). -/
  w : Quad
  /-- STEP, the index of the next step, 0..47 (R24). -/
  step : Fin 48
  /-- ENG (R25). -/
  eng : Eng
  /-- BUF[0..63], the block buffer (R26). -/
  buf : Vector Byte 64
  /-- FILL (R27), already the value the accepted command leaves while BUSY = 1 (R256). -/
  fill : BitVec 6
  /-- BITLEN (R28). -/
  bitlen : BitVec 64
  /-- PEND, oldest byte first (R29). -/
  pend : List Byte
  /-- DATA (R30). -/
  data : Word
  /-- PHASE (R31). -/
  phase : Phase
  /-- ERR (R32). -/
  err : Bool
  /-- ERRCODE (R32). -/
  errcode : ErrCode
  /-- BUSY (R33), a bit of its own. DESIGN CHOICE (log 17). -/
  busy : Bool
  /-- The reset input is asserted (R250). -/
  resetIn : Bool
  /-- The host's accesses that are not yet accepted, oldest first (R59, R255). -/
  port : List HostOp
  /-- The response of the last completed access. -/
  response : Option Response
  /-- The schedule: who moves next, and then (U4, U5). The model's own field, log 2. -/
  turns : List Config.Turn
deriving DecidableEq, Repr

/-- What a step or a meaning answers. -/
abbrev Outcome := Host.Outcome State Fault Refusal

/-- Four zero words: the value the model names for ACC and W after reset. DESIGN CHOICE (logs 3, 4). -/
def Quad.zero : Quad := ⟨0, 0, 0, 0⟩

/-- The machine right after reset: the table of R250. ACC, W and BUF hold zero by the model's choice (logs 3, 4);
nothing waits at the port and nothing is scheduled (logs 1, 2). -/
def State.reset : State where
  acc := Quad.zero
  w := Quad.zero
  step := 0
  eng := .idle
  buf := Vector.replicate 64 0
  fill := 0
  bitlen := 0
  pend := []
  data := 0x00000000
  phase := .idle
  err := false
  errcode := .noError
  busy := false
  resetIn := false
  port := []
  response := none
  turns := []

end Sys2Proof.Machine
end

