-- ==== Sys2Proof/Machine/Operands.lean ====
section
/-! DEFINITION. Every operand form: the bytes of DATA that ABSORB takes (30_encoding.md rule R72), the bytes and words
of the block buffer and the length field (20_memory.md rules R52, R53), the accumulator words and the digest (R54),
the halves of BITLEN (R28), and the offsets of the registers (10_state.md rule R35). -/

namespace Sys2Proof.Machine

/-- n = CNT + 1, the number of bytes ABSORB appends (R72). -/
def byteCount (cnt : BitVec 2) : Nat := cnt.toNat + 1

/-- The bytes ABSORB takes from DATA: the low CNT + 1 bytes, byte 0 first (R72, R108). -/
def absorbBytes (data : Word) (cnt : BitVec 2) : List Byte :=
  ([0, 1, 2, 3].take (byteCount cnt)).map (Word.lane data)

/-- The length field: byte q is bits [8q+7:8q] of the bit length, q = 0..7 in this order (R53, R104). -/
def lengthBytes (bitlen : BitVec 64) : List Byte :=
  [0, 1, 2, 3, 4, 5, 6, 7].map fun q => bitlen.extractLsb' (8 * q) 8

/-- BUF[j] (R26). -/
def getByte (buf : Vector Byte 64) (j : BitVec 6) : Byte := buf[j.toNat]'j.isLt

/-- BUF[j] <- b (R107). -/
def setByte (buf : Vector Byte 64) (j : BitVec 6) (b : Byte) : Vector Byte 64 := buf.set j.toNat b j.isLt

/-- X[k] = {BUF[4k+3], BUF[4k+2], BUF[4k+1], BUF[4k]} (R52, R130). -/
def blockWord (buf : Vector Byte 64) (k : Fin 16) : Word :=
  buf[4 * k.val + 3] ++ buf[4 * k.val + 2] ++ buf[4 * k.val + 1] ++ buf[4 * k.val]

/-- Register n of ACC[0..3] or word n of W (R20, R23). -/
def Quad.get (q : Quad) (n : BitVec 2) : Word :=
  if n = 0 then q.a else if n = 1 then q.b else if n = 2 then q.c else q.d

/-- ACC as a model represents it: no value in PHASE = IDLE (R34). -/
def State.acc? (s : State) : Option Quad := if s.phase = .idle then none else some s.acc

/-- The digest: byte 4n + j is ACC[n][8j+7:8j] (R54, R174). -/
def digestBytes (q : Quad) : List Byte :=
  [q.a, q.b, q.c, q.d].flatMap fun v => [0, 1, 2, 3].map (Word.lane v)

/-- LEN_LO = BITLEN[31:0] (R28). -/
def lenLo (bitlen : BitVec 64) : Word := bitlen.extractLsb' 0 32

/-- LEN_HI = BITLEN[63:32] (R28). -/
def lenHi (bitlen : BitVec 64) : Word := bitlen.extractLsb' 32 32

/-- The offset of each register (R35). -/
def Reg.offset : Reg → Offset
  | .cmd => 0x00
  | .status => 0x04
  | .data => 0x08
  | .lenLo => 0x10
  | .lenHi => 0x14
  | .acc0 => 0x20
  | .acc1 => 0x24
  | .acc2 => 0x28
  | .acc3 => 0x2C

end Sys2Proof.Machine
end

