-- ==== Sys2Proof/Machine/Compression.lean ====
section
/-! DEFINITION. The compression function (41_compression.md): the three nonlinear functions, rotate-left, the word orders,
the rotation schedules, the additive constants, one step, the feed-forward and the compression of a block. -/

namespace Sys2Proof.Machine

/-- F(x,y,z) = (x AND y) OR ((NOT x) AND z) (R132). -/
def fnF (x y z : Word) : Word := (x &&& y) ||| (~~~x &&& z)

/-- G(x,y,z) = (x AND y) OR (x AND z) OR (y AND z) (R133). -/
def fnG (x y z : Word) : Word := (x &&& y) ||| (x &&& z) ||| (y &&& z)

/-- H(x,y,z) = x XOR y XOR z (R134). -/
def fnH (x y z : Word) : Word := x ^^^ y ^^^ z

/-- rotl32(v, s) = ((v << s) OR (v >> (32 - s)))[31:0] (R135), the definition the rule marks as general knowledge.
PRESUMED (log 15). -/
def rotl32 (v : Word) (s : Nat) : Word := (v <<< s) ||| (v >>> (32 - s))

/-- The three rounds. -/
inductive Round where
  | one
  | two
  | three
deriving DecidableEq, Repr

/-- Step j belongs to round (j div 16) + 1 (R141). -/
def Round.ofStep (j : Fin 48) : Round :=
  if j.val < 16 then .one else if j.val < 32 then .two else .three

/-- i = j mod 16, the step in its round (R141). -/
def stepInRound (j : Fin 48) : Fin 16 := Fin.ofNat 16 j.val

/-- The function of a round (R141). -/
def Round.fn : Round → Word → Word → Word → Word
  | .one => fnF
  | .two => fnG
  | .three => fnH

/-- The additive constant of a round (R140). -/
def Round.const : Round → Word
  | .one => 0x00000000
  | .two => 0x5A827999
  | .three => 0x6ED9EBA1

/-- The word order of round 3 (R137). -/
def order3 : Vector (Fin 16) 16 := #v[0, 8, 4, 12, 2, 10, 6, 14, 1, 9, 5, 13, 3, 11, 7, 15]

/-- The word that step i of a round adds (R137). -/
def Round.order (r : Round) (i : Fin 16) : Fin 16 :=
  match r with
  | .one => i
  | .two => Fin.ofNat 16 (i.val % 4 * 4 + i.val / 4)
  | .three => order3[i.val]

/-- The four rotation amounts of a round (R139). -/
def Round.amounts : Round → Vector Nat 4
  | .one => #v[3, 7, 11, 19]
  | .two => #v[3, 5, 9, 13]
  | .three => #v[3, 9, 11, 15]

/-- The rotation amount of step i of a round, SR[r][i mod 4] (R139). -/
def Round.amount (r : Round) (i : Fin 16) : Nat := r.amounts[i.val % 4]'(Nat.mod_lt _ (by decide))

/-- t of EngineStep(j): the value A' that the step computes (R142). -/
def stepValue (buf : Vector Byte 64) (j : Fin 48) (q : Quad) : Word :=
  let r := Round.ofStep j
  let i := stepInRound j
  rotl32 (q.a + r.fn q.b q.c q.d + blockWord buf (r.order i) + r.const) (r.amount i)

/-- EngineStep(j), with the role rotation (W.a, W.b, W.c, W.d) <- (W.d, t, W.b, W.c) (R142). -/
def engineStep (buf : Vector Byte 64) (j : Fin 48) (q : Quad) : Quad :=
  ⟨q.d, stepValue buf j q, q.b, q.c⟩

/-- FeedForward(): each word of the saved state plus the working word, modulo 2^32 (R146). -/
def feedForward (acc q : Quad) : Quad := ⟨acc.a + q.a, acc.b + q.b, acc.c + q.c, acc.d + q.d⟩

/-- The 48 steps in order (R147). -/
def allSteps (buf : Vector Byte 64) (q : Quad) : Quad :=
  (List.finRange 48).foldl (fun q j => engineStep buf j q) q

/-- Compress() on an accumulator and a block (R147). -/
def compress (acc : Quad) (buf : Vector Byte 64) : Quad := feedForward acc (allSteps buf acc)

/-- The initial state constants (R170). -/
def initialState : Quad := ⟨0x67452301, 0xEFCDAB89, 0x98BADCFE, 0x10325476⟩

end Sys2Proof.Machine
end

