-- ==== Sys2Proof/Machine/Flags.lean ====
section
/-! DEFINITION. The flags and fields of STATUS (10_state.md rules R31 to R33, R36) and the recording and clearing of an
error (60_exceptions.md rules R220, R221; 43_control.md rule R192). The block has no other flag (R39). -/

namespace Sys2Proof.Machine

/-- The 2-bit code of PHASE (R31). -/
def Phase.code : Phase → BitVec 2
  | .idle => 0
  | .absorb => 1
  | .done => 2

/-- The 4-bit code of ERRCODE (R220). -/
def ErrCode.code : ErrCode → BitVec 4
  | .noError => 0
  | .illegal => 1
  | .badPhase => 2

/-- STATUS = {18'b0, FILL[5:0], ERRCODE[3:0], ERR, PHASE[1:0], BUSY} (R36). -/
def State.statusWord (s : State) : Word :=
  0#18 ++ s.fill ++ s.errcode.code ++ BitVec.ofBool s.err ++ s.phase.code ++ BitVec.ofBool s.busy

/-- `signal Error(code)`: the first error since ERR was last 0 is recorded and sticks, a later one is lost (R221). This
is all that an error does: it saves no state, changes no mode and transfers no control (R222, R226). -/
def State.signalError (s : State) (code : ErrCode) : State :=
  if s.err then s else { s with err := true, errcode := code }

/-- The "return" from an error (R226): ERR <- 0 and ERRCODE <- 0 (R192). -/
def State.clearError (s : State) : State := { s with err := false, errcode := .noError }

/-- The engine has a transition to make: it is not in ENG_IDLE, or PEND is not empty (R258). -/
def State.engineActive (s : State) : Bool := s.eng != .idle || !s.pend.isEmpty

end Sys2Proof.Machine
end

