-- ==== Sys2Proof/Machine/Ops.lean ====
section
/-! DEFINITION. The shared operations: accepting and completing a host access, the hold of 70_reset_and_hazards.md rule
R255, the padder's AppendByte (40_padder.md rule R107), the engine's transitions (41_compression.md rule R148), the
reset input (R250, R251), the arrival and the fetch of a host access, and the choice of who moves. Taking an error is
`State.signalError` of Flags.lean (R221); there is no trap (60_exceptions.md rule R226). -/

namespace Sys2Proof.Machine

/-! ### Host accesses -/

/-- The access at the front of the port has taken effect: it leaves the port and the host has its response. -/
def State.complete (s : State) (r : Response) : State := { s with port := s.port.tail, response := some r }

/-- An access that the block holds while BUSY = 1 (R255), and while reset is asserted (U9): a held access is not
accepted and has no effect, so nothing changes. -/
def whenReady (s : State) (effect : State → State) : Outcome :=
  if s.resetIn || s.busy then .next s else .next (effect s)

/-- An access that completes at once whether or not BUSY = 1: a STATUS read and a BusError (R255). It has no step while
reset is asserted (U9). Behind a held access it waits in the port (R59). DEDUCED (log 12). -/
def whenReleased (s : State) (effect : State → State) : Outcome :=
  if s.resetIn then .next s else .next (effect s)

/-- An access arrives: it waits behind the earlier ones (R59). -/
def State.arrive (s : State) (op : HostOp) : State := { s with port := s.port ++ [op] }

/-- The instruction that the oldest waiting access stands for. -/
def State.fetch (s : State) : Option Instr := s.port.head?.map decode

/-- `op` becomes the oldest waiting access and the host has the next turn. -/
def State.place (s : State) (op : HostOp) : State :=
  { s with port := op :: s.port, turns := .host :: s.turns }

/-! ### Engine and padder -/

/-- The engine leaves ENG_IDLE for a full block: W <- ACC, STEP <- 0, ENG <- ENG_RUN (R131, R148), and BUSY is 1
(R254). -/
def State.startBlock (s : State) : State := { s with w := s.acc, step := 0, eng := .run, busy := true }

/-- AppendByte(b) (R107). FILL counts the byte at once (R256). The byte goes to BUF[FILL], and the 64th byte of a block
starts the engine; while the engine runs or earlier bytes wait, it waits in PEND. -/
def State.appendByte (s : State) (b : Byte) : State :=
  if s.busy then { s with pend := s.pend ++ [b], fill := s.fill + 1 }
  else
    let s' := { s with buf := setByte s.buf s.fill b, fill := s.fill + 1 }
    if s.fill = 63 then s'.startBlock else s'

/-- AppendByte of each byte in turn, each seeing the effect of the previous one (R107). -/
def State.appendBytes (s : State) (bs : List Byte) : State := bs.foldl State.appendByte s

/-- A message byte also counts 8 bits toward BITLEN, modulo 2^64 (R108, R111). -/
def State.absorbByte (s : State) (b : Byte) : State :=
  let s' := s.appendByte b
  { s' with bitlen := s'.bitlen + 8 }

/-- `while FILL != 56: AppendByte(0x00)` (R109), at most `fuel` times; 64 are always enough for a 6-bit FILL. -/
def State.padZeros : Nat → State → State
  | 0, s => s
  | fuel + 1, s => if s.fill = 56 then s else State.padZeros fuel (s.appendByte 0x00)

/-- Where the oldest byte of PEND goes: FILL already counts the waiting bytes (R256), so they follow the byte before
them at FILL - |PEND|. DEDUCED (log 9). -/
def State.drainPos (s : State) : BitVec 6 := s.fill - BitVec.ofNat 6 s.pend.length

/-- ENG_RUN: EngineStep(STEP), then the next STEP; after the step with STEP = 47 the feed-forward remains (R148). STEP
holds 0..47 only (R24), so after 47 it is 0: DESIGN CHOICE (log 7). -/
def State.runStep (s : State) : State :=
  { s with w := engineStep s.buf s.step s.w, step := s.step + 1, eng := if s.step = 47 then .ff else .run }

/-- ENG_FF: FeedForward() and ENG <- ENG_IDLE (R146, R148); BUSY is 0 when no byte waits in PEND (R254). W
keeps its values: DESIGN CHOICE (log 19). -/
def State.finishBlock (s : State) : State :=
  { s with acc := feedForward s.acc s.w, eng := .idle, busy := !s.pend.isEmpty }

/-- ENG_IDLE with PEND not empty: the oldest waiting byte is appended, which may start the next block (R107, R148);
BUSY is 0 when that was the last one and no block starts (R254). One byte a transition: DESIGN CHOICE (log 8). -/
def State.drainByte (s : State) (b : Byte) (rest : List Byte) : State :=
  let s' := { s with buf := setByte s.buf s.drainPos b, pend := rest, busy := !rest.isEmpty }
  if s.drainPos = 63 then s'.startBlock else s'

/-- One transition of the engine (R148); none in ENG_IDLE with PEND empty (R258). -/
def State.engineTransition (s : State) : State :=
  match s.eng with
  | .run => s.runStep
  | .ff => s.finishBlock
  | .idle =>
    match s.pend with
    | [] => s
    | b :: rest => s.drainByte b rest

/-- `n` transitions of the engine alone. -/
def State.engineRun : Nat → State → State
  | 0, s => s
  | n + 1, s => State.engineRun n s.engineTransition

/-- The engine runs until it has nothing left to do: at most two blocks of 49 transitions with 64 waiting bytes between
them (R29, R148). -/
def State.settle (s : State) : State := s.engineRun 162

/-! ### Reset input and schedule -/

/-- The reset input is asserted, at any time: every state of the block as after reset, a compression in progress and
PEND abandoned (R250, R251). What waits at the port and the host's last response are not the block's; log 10. -/
def State.assertReset (s : State) : State :=
  { State.reset with port := s.port, response := s.response, turns := s.turns, resetIn := true }

/-- The reset input is released. -/
def State.releaseReset (s : State) : State := { s with resetIn := false }

/-- Who moves next, and the state with that turn taken from the schedule. When nothing is scheduled the engine moves
while it has a transition, else the host: DESIGN CHOICE (log 2). -/
def State.nextTurn (s : State) : Config.Turn × State :=
  match s.turns with
  | t :: rest => (t, { s with turns := rest })
  | [] => (if s.engineActive then .engine else .host, s)

end Sys2Proof.Machine
end

