-- ==== Sys2Proof/Machine/Bus.lean ====
section
/-! DEFINITION. The access that the bus refuses (20_memory.md rule R57, 60_exceptions.md rule R224). -/

namespace Sys2Proof.Machine

/-- `raise BusError(off)`: an error response, at once even while BUSY = 1 (R255); no state of the block changes and no
error is recorded (R57, R224). -/
def execBusError (_dir : Dir) (off : Offset) (_width : Width) (_v : Word) (s : State) : Outcome :=
  whenReleased s fun s => s.complete (.fault (.busError off))

end Sys2Proof.Machine
end

