-- ==== Sys2Proof/Machine/Accumulator.lean ====
section
/-! DEFINITION. INIT and the reads of the accumulator (42_accumulator.md rules R171, R175, R176). -/

namespace Sys2Proof.Machine

/-- INIT (R171), legal in every phase: ACC, FILL, BITLEN and PHASE only. -/
def initEffect (s : State) : State :=
  { s with acc := initialState, fill := 0, bitlen := 0, phase := .absorb }

/-- What a read of ACCn answers: the word, or no value in PHASE = IDLE (R175, R176). -/
def accResponse (s : State) (n : BitVec 2) : Response :=
  match s.acc? with
  | some acc => .value (acc.get n)
  | none => .fault .accHasNoValue

/-- The command INIT, written to CMD (R77, R171, R190). -/
def execInit (s : State) : Outcome :=
  whenReady s fun s => (initEffect s).complete .written

/-- RD ACCn (R175). -/
def execRdAcc (n : BitVec 2) (s : State) : Outcome :=
  whenReady s fun s => s.complete (accResponse s n)

end Sys2Proof.Machine
end

