-- ==== Sys2Proof/Machine/Padder.lean ====
section
/-! DEFINITION. The padder's commands ABSORB and FINAL (40_padder.md rules R108, R109). -/

namespace Sys2Proof.Machine

/-- ABSORB(n), n = CNT + 1 (R108): in another phase than ABSORB it records BAD_PHASE and does nothing else. -/
def absorbEffect (cnt : BitVec 2) (s : State) : State :=
  if s.phase = .absorb then (absorbBytes s.data cnt).foldl State.absorbByte s
  else s.signalError .badPhase

/-- FINAL (R109): the marker, the zero bytes, the length as ABSORB counted it, then PHASE <- DONE; in another phase than
ABSORB it records BAD_PHASE and does nothing else. -/
def finalEffect (s : State) : State :=
  if s.phase = .absorb then
    let padded := State.padZeros 64 (s.appendByte 0x80)
    { padded.appendBytes (lengthBytes s.bitlen) with phase := .done }
  else s.signalError .badPhase

/-- The command ABSORB, written to CMD (R77, R108, R190). -/
def execAbsorb (cnt : BitVec 2) (s : State) : Outcome :=
  whenReady s fun s => (absorbEffect cnt s).complete .written

/-- The command FINAL, written to CMD (R77, R109, R190). -/
def execFinal (s : State) : Outcome :=
  whenReady s fun s => (finalEffect s).complete .written

end Sys2Proof.Machine
end

