-- ==== Sys2Proof/Machine/Control.lean ====
section
/-! DEFINITION. The command decoder, the commands NOP, CLRERR and ILLEGAL, and the register accesses other than the ACC
reads (43_control.md rules R190 to R200). -/

namespace Sys2Proof.Machine

/-- NOP changes nothing (R191). -/
def nopEffect (s : State) : State := s

/-- CLRERR clears the error record and nothing else (R192). -/
def clrerrEffect (s : State) : State := s.clearError

/-- An illegal command word records ILLEGAL; the word itself is not recorded (R193, R220). -/
def illegalEffect (_w : Word) (s : State) : State := s.signalError .illegal

/-- What an accepted command does (R190). -/
def commandEffect : Command → State → State
  | .nop, s => nopEffect s
  | .init, s => initEffect s
  | .absorb cnt, s => absorbEffect cnt s
  | .final, s => finalEffect s
  | .clrerr, s => clrerrEffect s
  | .illegal w, s => illegalEffect w s

/-- The command NOP, written to CMD (R77, R191). -/
def execNop (s : State) : Outcome :=
  whenReady s fun s => (nopEffect s).complete .written

/-- The command CLRERR, written to CMD (R77, R192). -/
def execClrerr (s : State) : Outcome :=
  whenReady s fun s => (clrerrEffect s).complete .written

/-- An illegal word, written to CMD (R77, R193). -/
def execIllegal (w : Word) (s : State) : Outcome :=
  whenReady s fun s => (illegalEffect w s).complete .written

/-- WR CMD: the word is decoded when the write is accepted, and its command takes effect (R190). -/
def execWrCmd (w : Word) (s : State) : Outcome :=
  whenReady s fun s => (commandEffect (decodeCommand w) s).complete .written

/-- WR DATA (R195). -/
def execWrData (v : Word) (s : State) : Outcome :=
  whenReady s fun s => { s with data := v }.complete .written

/-- A write to a read-only or reserved offset has no effect and no error (R200). -/
def execWrIgnored (_off : Offset) (_v : Word) (s : State) : Outcome :=
  whenReady s fun s => s.complete .written

/-- RD CMD returns 0 (R199). -/
def execRdCmd (s : State) : Outcome :=
  whenReady s fun s => s.complete (.value 0x00000000)

/-- RD STATUS, which is never held by BUSY (R194, R255). -/
def execRdStatus (s : State) : Outcome :=
  whenReleased s fun s => s.complete (.value s.statusWord)

/-- RD DATA (R196). -/
def execRdData (s : State) : Outcome :=
  whenReady s fun s => s.complete (.value s.data)

/-- RD LEN_LO (R197). -/
def execRdLenLo (s : State) : Outcome :=
  whenReady s fun s => s.complete (.value (lenLo s.bitlen))

/-- RD LEN_HI (R198). -/
def execRdLenHi (s : State) : Outcome :=
  whenReady s fun s => s.complete (.value (lenHi s.bitlen))

/-- A read of a reserved offset returns 0 (R200). -/
def execRdReserved (_off : Offset) (s : State) : Outcome :=
  whenReady s fun s => s.complete (.value 0x00000000)

end Sys2Proof.Machine
end

