-- ==== Sys2Proof/Machine/Dispatch.lean ====
section
/-! DEFINITION. The dispatch: one arm for each constructor of Instr. -/

namespace Sys2Proof.Machine

def exec (i : Instr) (s : State) : Host.Outcome State Fault Refusal :=
  match i with
  | .nop => Sys2Proof.Machine.execNop s
  | .init => Sys2Proof.Machine.execInit s
  | .absorb cnt => Sys2Proof.Machine.execAbsorb cnt s
  | .final => Sys2Proof.Machine.execFinal s
  | .clrerr => Sys2Proof.Machine.execClrerr s
  | .illegal w => Sys2Proof.Machine.execIllegal w s
  | .wrCmd w => Sys2Proof.Machine.execWrCmd w s
  | .wrData v => Sys2Proof.Machine.execWrData v s
  | .wrIgnored off v => Sys2Proof.Machine.execWrIgnored off v s
  | .rdCmd => Sys2Proof.Machine.execRdCmd s
  | .rdStatus => Sys2Proof.Machine.execRdStatus s
  | .rdData => Sys2Proof.Machine.execRdData s
  | .rdLenLo => Sys2Proof.Machine.execRdLenLo s
  | .rdLenHi => Sys2Proof.Machine.execRdLenHi s
  | .rdAcc n => Sys2Proof.Machine.execRdAcc n s
  | .rdReserved off => Sys2Proof.Machine.execRdReserved off s
  | .busError dir off width v => Sys2Proof.Machine.execBusError dir off width v s

end Sys2Proof.Machine
end

