-- ==== Sys2Proof/Machine/Turn.lean ====
section
/-! DEFINITION. What one turn of each agent does. -/

namespace Sys2Proof.Machine

/-- One turn of the agent named: the host's oldest waiting access is decoded and executed, and while it is held it stays
where it is (R255); the engine makes one transition (R148); the reset input changes (R250). -/
def runTurn (t : Config.Turn) (s : State) : Outcome :=
  match t with
  | .host =>
    match s.fetch with
    | some i => exec i s
    | none => .next s
  | .engine => .next s.engineTransition
  | .resetOn => .next s.assertReset
  | .resetOff => .next s.releaseReset

end Sys2Proof.Machine
end

