-- ==== Sys2Proof/Machine/Step.lean ====
section
/-! DEFINITION. One step of the machine, and how a word of the opcode table is placed where the step reads it. -/

namespace Sys2Proof.Machine

/-- One step: the agent whose turn it is moves. With nothing to do the block waits for the next access (R232),
and the step answers the same state. DEDUCED (log 18). -/
def step (s : State) : Host.Outcome State Fault Refusal :=
  runTurn s.nextTurn.1 s.nextTurn.2

/-- The instruction of a word of the opcode table, placed as the access that the next step executes. -/
def State.withFetchWord (s : State) (nbits w : Nat) : State :=
  match HostOp.ofTableWord nbits w with
  | .ok op => s.place op
  | .error _ => s

end Sys2Proof.Machine
end

