-- ==== Sys2Proof/Machine/Architecture.lean ====
section
/-! DEFINITION. The architectural reading of the commands: each AppendByte sees the completed Compress of the block
before it (40_padder.md rules R107 to R109), with no engine, no PEND and no BUSY. It is what a model that performs each
command atomically computes (70_reset_and_hazards.md rule R258); statements compare the machine with it. -/

namespace Sys2Proof.Machine

/-- The state an atomic command reads and writes. -/
structure Arch where
  acc : Quad
  buf : Vector Byte 64
  fill : BitVec 6
  bitlen : BitVec 64
  data : Word
  phase : Phase
  err : Bool
  errcode : ErrCode
deriving DecidableEq, Repr

/-- That part of a state. -/
def State.arch (s : State) : Arch :=
  ⟨s.acc, s.buf, s.fill, s.bitlen, s.data, s.phase, s.err, s.errcode⟩

/-- AppendByte(b), the pseudocode of R107 line by line. -/
def Arch.appendByte (s : Arch) (b : Byte) : Arch :=
  let s := { s with buf := setByte s.buf s.fill b }
  if s.fill = 63 then { s with fill := 0, acc := compress s.acc s.buf }
  else { s with fill := s.fill + 1 }

/-- `signal Error(code)` (R221). -/
def Arch.signalError (s : Arch) (code : ErrCode) : Arch :=
  if s.err then s else { s with err := true, errcode := code }

/-- The loop of ABSORB: AppendByte, then BITLEN <- (BITLEN + 8) mod 2^64 (R108). -/
def Arch.absorbByte (s : Arch) (b : Byte) : Arch :=
  { s.appendByte b with bitlen := s.bitlen + 8 }

/-- ABSORB (R108). -/
def Arch.absorb (cnt : BitVec 2) (s : Arch) : Arch :=
  if s.phase = .absorb then (absorbBytes s.data cnt).foldl Arch.absorbByte s
  else s.signalError .badPhase

/-- The zero bytes of FINAL (R109). -/
def Arch.padZeros : Nat → Arch → Arch
  | 0, s => s
  | fuel + 1, s => if s.fill = 56 then s else Arch.padZeros fuel (s.appendByte 0x00)

/-- FINAL (R109). -/
def Arch.final (s : Arch) : Arch :=
  if s.phase = .absorb then
    { (lengthBytes s.bitlen).foldl Arch.appendByte (Arch.padZeros 64 (s.appendByte 0x80)) with phase := .done }
  else s.signalError .badPhase

/-- A command as one atomic operation (R190). -/
def Arch.command (s : Arch) : Command → Arch
  | .nop => s
  | .init => { s with acc := initialState, fill := 0, bitlen := 0, phase := .absorb }
  | .absorb cnt => s.absorb cnt
  | .final => s.final
  | .clrerr => { s with err := false, errcode := .noError }
  | .illegal _ => s.signalError .illegal

/-- An access as one atomic operation: a command, a write of DATA, or an access that only answers (R190, R195 to R200). -/
def Arch.access (s : Arch) : Instr → Arch
  | .nop => s.command .nop
  | .init => s.command .init
  | .absorb cnt => s.command (.absorb cnt)
  | .final => s.command .final
  | .clrerr => s.command .clrerr
  | .illegal w => s.command (.illegal w)
  | .wrCmd w => s.command (decodeCommand w)
  | .wrData v => { s with data := v }
  | .wrIgnored _ _ | .rdReserved _ | .busError _ _ _ _ => s
  | .rdCmd | .rdStatus | .rdData | .rdLenLo | .rdLenHi | .rdAcc _ => s

end Sys2Proof.Machine
end

