-- ==== Sys2Proof/Machine/FixedForm.lean ====
section
/-! DEFINITION. The 48 steps in the equivalent fixed-variable form, the tables of 41_compression.md rules R143 to R145 row
by row. Nothing of the machine rests on it: statements compare the steps of R142 with it. -/

namespace Sys2Proof.Machine

/-- The variable an update writes (R143). -/
inductive FixedVar where
  | va
  | vb
  | vc
  | vd
deriving DecidableEq, Repr

/-- One row of the tables: the variable written, the word index k, the rotation amount s. -/
structure FixedRow where
  var : FixedVar
  k : Fin 16
  s : Nat
deriving DecidableEq, Repr

/-- The table of round 1 (R143). -/
def fixedRoundOne : List FixedRow :=
  [⟨.va, 0, 3⟩, ⟨.vd, 1, 7⟩, ⟨.vc, 2, 11⟩, ⟨.vb, 3, 19⟩,
   ⟨.va, 4, 3⟩, ⟨.vd, 5, 7⟩, ⟨.vc, 6, 11⟩, ⟨.vb, 7, 19⟩,
   ⟨.va, 8, 3⟩, ⟨.vd, 9, 7⟩, ⟨.vc, 10, 11⟩, ⟨.vb, 11, 19⟩,
   ⟨.va, 12, 3⟩, ⟨.vd, 13, 7⟩, ⟨.vc, 14, 11⟩, ⟨.vb, 15, 19⟩]

/-- The table of round 2 (R144). -/
def fixedRoundTwo : List FixedRow :=
  [⟨.va, 0, 3⟩, ⟨.vd, 4, 5⟩, ⟨.vc, 8, 9⟩, ⟨.vb, 12, 13⟩,
   ⟨.va, 1, 3⟩, ⟨.vd, 5, 5⟩, ⟨.vc, 9, 9⟩, ⟨.vb, 13, 13⟩,
   ⟨.va, 2, 3⟩, ⟨.vd, 6, 5⟩, ⟨.vc, 10, 9⟩, ⟨.vb, 14, 13⟩,
   ⟨.va, 3, 3⟩, ⟨.vd, 7, 5⟩, ⟨.vc, 11, 9⟩, ⟨.vb, 15, 13⟩]

/-- The table of round 3 (R145). -/
def fixedRoundThree : List FixedRow :=
  [⟨.va, 0, 3⟩, ⟨.vd, 8, 9⟩, ⟨.vc, 4, 11⟩, ⟨.vb, 12, 15⟩,
   ⟨.va, 2, 3⟩, ⟨.vd, 10, 9⟩, ⟨.vc, 6, 11⟩, ⟨.vb, 14, 15⟩,
   ⟨.va, 1, 3⟩, ⟨.vd, 9, 9⟩, ⟨.vc, 5, 11⟩, ⟨.vb, 13, 15⟩,
   ⟨.va, 3, 3⟩, ⟨.vd, 11, 9⟩, ⟨.vc, 7, 11⟩, ⟨.vb, 15, 15⟩]

/-- One update: the variable named takes rotl32 of itself, the round's function of the three variables after it in
the cycle, the word and the constant (R143). The four fields of the quad are va, vb, vc, vd. -/
def fixedUpdate (r : Round) (buf : Vector Byte 64) (q : Quad) (row : FixedRow) : Quad :=
  let new (v x y z : Word) := rotl32 (v + r.fn x y z + blockWord buf row.k + r.const) row.s
  match row.var with
  | .va => { q with a := new q.a q.b q.c q.d }
  | .vd => { q with d := new q.d q.a q.b q.c }
  | .vc => { q with c := new q.c q.d q.a q.b }
  | .vb => { q with b := new q.b q.c q.d q.a }

/-- The rows of the three rounds in order, each with its round (R143 to R145). -/
def fixedRows : List (Round × FixedRow) :=
  fixedRoundOne.map (fun row => (.one, row)) ++ fixedRoundTwo.map (fun row => (.two, row)) ++
    fixedRoundThree.map (fun row => (.three, row))

/-- The first `n` updates (R143). -/
def fixedSteps (n : Nat) (buf : Vector Byte 64) (q : Quad) : Quad :=
  (fixedRows.take n).foldl (fun q x => fixedUpdate x.1 buf q x.2) q

/-- The role rotation (A,B,C,D) <- (D,A,B,C) (R142). -/
def Quad.rotate (q : Quad) : Quad := ⟨q.d, q.a, q.b, q.c⟩

/-- The role rotation `n` times. -/
def Quad.rotateBy : Nat → Quad → Quad
  | 0, q => q
  | n + 1, q => Quad.rotateBy n q.rotate

/-- The first `n` steps of R142. -/
def stepsUpTo (n : Nat) (buf : Vector Byte 64) (q : Quad) : Quad :=
  ((List.finRange 48).take n).foldl (fun q j => engineStep buf j q) q

end Sys2Proof.Machine
end

