-- ==== Sys2Proof/Machine/Assembler.lean ====
section
/-! DEFINITION. The statements of a host program and the pseudo-instructions (30_encoding.md rules R77, R78). -/

namespace Sys2Proof.Machine

/-- One statement of a host program (R77, R78). -/
inductive Stmt where
  /-- `wr <REG>, <imm32>` -/
  | wr (reg : Reg) (v : Word)
  /-- `wr @0xNN, <imm32>` -/
  | wrAt (off : Offset) (v : Word)
  /-- `rd <REG>` -/
  | rd (reg : Reg)
  /-- `rd @0xNN` -/
  | rdAt (off : Offset)
  | nop
  | init
  /-- `absorb <n>` with n = `n1` + 1 in 1..4 -/
  | absorb (n1 : BitVec 2)
  | final
  | clrerr
  /-- `cmd <imm32>` -/
  | cmd (w : Word)
  /-- `absorbw <imm32>` -/
  | absorbw (v : Word)
  /-- `absorbb <imm8>` -/
  | absorbb (b : Byte)
  | digest
  | wait
deriving DecidableEq, Repr

/-- A 32-bit write access. -/
def writeAccess (off : Offset) (v : Word) : HostOp := .access (accessWord .write off) .w32 v

/-- A 32-bit read access. -/
def readAccess (off : Offset) : HostOp := .access (accessWord .read off) .w32 0

/-- `absorb n` is `wr CMD, 0x20000000 OR ((n-1) << 24)` (R77). -/
def absorbWord (n1 : BitVec 2) : Word := 0x20000000 ||| (n1.setWidth 32 <<< 24)

/-- The accesses a statement stands for (R77, R78); of `wait`, one pass of its loop. -/
def Stmt.assemble : Stmt → List HostOp
  | .wr reg v => [writeAccess (Reg.offset reg) v]
  | .wrAt off v => [writeAccess off v]
  | .rd reg => [readAccess (Reg.offset reg)]
  | .rdAt off => [readAccess off]
  | .nop => [writeAccess (Reg.offset .cmd) 0x00000000]
  | .init => [writeAccess (Reg.offset .cmd) 0x10000000]
  | .absorb n1 => [writeAccess (Reg.offset .cmd) (absorbWord n1)]
  | .final => [writeAccess (Reg.offset .cmd) 0x30000000]
  | .clrerr => [writeAccess (Reg.offset .cmd) 0x40000000]
  | .cmd w => [writeAccess (Reg.offset .cmd) w]
  | .absorbw v => [writeAccess (Reg.offset .data) v, writeAccess (Reg.offset .cmd) (absorbWord 3)]
  | .absorbb b => [writeAccess (Reg.offset .data) (b.setWidth 32), writeAccess (Reg.offset .cmd) (absorbWord 0)]
  | .digest => [Reg.acc0, .acc1, .acc2, .acc3].map fun r => readAccess (Reg.offset r)
  | .wait => [readAccess (Reg.offset .status)]

/-- STATUS.BUSY in a word that a read of STATUS returned (R36). -/
def statusBusy (v : Word) : Bool := v.getLsbD 0

/-- Whether the host carries a statement out again, by the response to its last access: `wait` is `rd STATUS`, repeated
until STATUS.BUSY = 0 (R78), and nothing else is repeated. -/
def Stmt.repeats : Stmt → Option Response → Bool
  | .wait, some (.value v) => statusBusy v
  | .wait, some .written | .wait, some (.fault _) | .wait, none => true
  | .wr _ _, _ | .wrAt _ _, _ | .rd _, _ | .rdAt _, _ | .nop, _ | .init, _ | .absorb _, _ | .final, _ | .clrerr, _
  | .cmd _, _ | .absorbw _, _ | .absorbb _, _ | .digest, _ => false

end Sys2Proof.Machine
end

