-- ==== Sys2Proof/Machine/HostProgram.lean ====
section
/-! DEFINITION. A host program carried out beside the block (30_encoding.md rules R77, R78): the host issues the accesses
of a statement, and by their response carries the statement out again or goes on to the next. -/

namespace Sys2Proof.Machine

/-- A host program being carried out, with the block it drives. -/
structure HostProgram where
  block : State
  /-- The statement whose accesses have been issued. -/
  current : Option Stmt
  /-- The statements still to carry out, in order. -/
  todo : List Stmt
  /-- The responses so far, oldest first: among them the values that `rd` names (R77). -/
  answers : List Response
deriving DecidableEq, Repr

/-- A program about to be carried out on a block. -/
def HostProgram.start (s : State) (todo : List Stmt) : HostProgram := ⟨s, none, todo, []⟩

/-- The host issues the accesses of a statement, in their order (R77). -/
def HostProgram.issue (p : HostProgram) (st : Stmt) (rest : List Stmt) : HostProgram :=
  { p with block := st.assemble.foldl State.arrive p.block, current := some st, todo := rest }

/-- Every access of the current statement has its response: the host carries the statement out again, or is done with
it (R78) and goes on, whatever the response. That it goes on after a BusError, and after a read of ACC without a value, is
left to the platform (R224, U10; R176, U1): DESIGN CHOICE (log 23). -/
def HostProgram.finish (p : HostProgram) (st : Stmt) : HostProgram :=
  { p with current := none, todo := if st.repeats p.block.response then st :: p.todo else p.todo }

/-- The block moves to `t`; the response of an access that this completes is recorded. -/
def HostProgram.record (p : HostProgram) (t : State) : HostProgram :=
  { p with
    block := t
    answers := if t.port.length < p.block.port.length then p.answers ++ t.response.toList else p.answers }

/-- The block makes a step. -/
def HostProgram.stepBlock (p : HostProgram) : Host.Outcome HostProgram Fault Refusal :=
  match Sys2Proof.Machine.step p.block with
  | .next t => .next (p.record t)
  | .fault r => .fault r
  | .refused r => .refused r

/-- One step: while an access waits, or when the program is over, the block's; else the host finishes its statement or
issues the next. That the host issues a statement when the one before is answered is log 22, DESIGN CHOICE. -/
def HostProgram.step (p : HostProgram) : Host.Outcome HostProgram Fault Refusal :=
  match p.block.port, p.current, p.todo with
  | [], some st, _ => .next (p.finish st)
  | [], none, st :: rest => .next (p.issue st rest)
  | [], none, [] => p.stepBlock
  | _ :: _, _, _ => p.stepBlock

/-- `n` steps, stopping where a step stops. -/
def HostProgram.runSteps : Nat → HostProgram → Host.Outcome HostProgram Fault Refusal
  | 0, p => .next p
  | n + 1, p =>
    match p.step with
    | .next q => HostProgram.runSteps n q
    | .fault r => .fault r
    | .refused r => .refused r

/-- Every statement has been carried out and every access has its response. -/
def HostProgram.Finished (p : HostProgram) : Prop := p.current = none ∧ p.todo = [] ∧ p.block.port = []

end Sys2Proof.Machine
end

