-- ==== Sys2Proof/Machine/MessageDigest.lean ====
section
/-! DEFINITION. The source's whole-message padder and pipeline (40_padder.md rules R100 to R106, 42_accumulator.md rules
R173, R174): what the commands must compute between INIT and FINAL (R110). -/

namespace Sys2Proof.Machine

/-- bitlen = 8 x len(original message), modulo 2^64 (R101). -/
def messageBits (m : List Byte) : BitVec 64 := BitVec.ofNat 64 (8 * m.length)

/-- z = (55 - L) mod 64 zero bytes (R103). -/
def zeroCount (len : Nat) : Nat := (119 - len % 64) % 64

/-- Pad(M) (R101 to R104). -/
def pad (m : List Byte) : List Byte :=
  m ++ [0x80] ++ List.replicate (zeroCount m.length) 0x00 ++ lengthBytes (messageBits m)

/-- nb = ((L + 8) div 64) + 1 (R105). -/
def blockCount (len : Nat) : Nat := (len + 8) / 64 + 1

/-- Block n of a padded message is its bytes 64n to 64n+63 (R106). -/
def blockAt (p : List Byte) (n : Nat) : Vector Byte 64 := Vector.ofFn fun j => p.getD (64 * n + j.val) 0

/-- The blocks of a message in order, each block's output state feeding the next block's input state (R106, R173). -/
def messageState (m : List Byte) : Quad :=
  (List.range (blockCount m.length)).foldl (fun acc n => compress acc (blockAt (pad m) n)) initialState

/-- MD4(M): the final state packed as four little-endian words (R174). -/
def messageDigest (m : List Byte) : List Byte := digestBytes (messageState m)

end Sys2Proof.Machine
end

