-- ==== Sys2Proof/Machine/Platform.lean ====
section
/-! DEFINITION. Several instances on one platform, each with its own window and its own state (20_memory.md rules R50,
R62, 60_exceptions.md rule R230): BASE and N_INSTANCES are data here (log 16). -/

namespace Sys2Proof.Machine

/-- One instance: where its window stands, and its state. -/
structure Instance where
  place : Config.Placement
  state : State
deriving DecidableEq, Repr

/-- The instances of a platform; N_INSTANCES is their number (R230). -/
abbrev Platform := List Instance

/-- Every BASE is a multiple of 64 (R50) and no two instances share a window. -/
def Platform.wf (p : Platform) : Bool :=
  p.all (fun x => x.place.wf) && decide (p.map (fun x => x.place.base)).Nodup

/-- The window offset of an address of the host's map; an address outside the window is not decoded (R50). -/
def windowOffset (place : Config.Placement) (addr : Nat) : Option Offset :=
  if place.base ≤ addr ∧ addr < place.base + Config.windowBytes then some (BitVec.ofNat 6 (addr - place.base)) else none

/-- An access of the host at an address arrives at the instance whose window holds the address, and at no other. -/
def Platform.deliver (p : Platform) (dir : Dir) (addr : Nat) (width : Width) (v : Word) : Platform :=
  p.map fun x =>
    match windowOffset x.place addr with
    | some off => { x with state := x.state.arrive (.access (accessWord dir off) width v) }
    | none => x

/-- One step of instance `k` (R230): the others do not move. -/
def Platform.stepAt (p : Platform) (k : Fin p.length) : Host.Outcome Platform Fault Refusal :=
  match step p[k].state with
  | .next s => .next (p.set k { p[k] with state := s })
  | .fault r => .fault r
  | .refused r => .refused r

end Sys2Proof.Machine
end

