-- ==== Sys2Proof/Safety.lean ====
section
/-! DEFINITION. The terms in which statements speak of a run: a state the rules allow, a schedule, and a safe run. -/

namespace Sys2Proof.Machine

/-- The states the rules allow. -/
structure State.Inv (s : State) : Prop where
  /-- BUSY is 1 exactly while the engine has a transition to make (R33, R254, R258). -/
  busy_iff : s.busy = s.engineActive
  /-- STEP moves only while steps remain (R24, R148). -/
  step_zero : s.eng ≠ .run → s.step = 0
  /-- ERRCODE is NONE exactly when ERR = 0 (R32, R220, R221). -/
  err_iff : (s.errcode = .noError) ↔ (s.err = false)
  /-- Before the first INIT nothing is counted and nothing runs (R31, R250, R252). -/
  idle_clear : s.phase = .idle → s.fill = 0 ∧ s.bitlen = 0 ∧ s.busy = false
  /-- In ABSORB, FILL is the number of message bytes modulo 64 and BITLEN is 8 times it (R28, R108, R110). -/
  absorb_fill : s.phase = .absorb → s.fill = s.bitlen.extractLsb' 3 6
  /-- FINAL never leaves a block partly filled (R109). -/
  done_fill : s.phase = .done → s.fill = 0
  /-- BITLEN counts whole bytes (R28). -/
  bitlen_bytes : s.bitlen.extractLsb' 0 3 = 0
  /-- An ABSORB leaves at most 3 bytes waiting, those FILL counts (R29). -/
  absorb_pend : s.phase = .absorb → s.pend.length ≤ 3 ∧ s.pend.length ≤ s.fill.toNat
  /-- A FINAL leaves at most 64 bytes waiting (R29). -/
  pend_length : s.pend.length ≤ 64
  /-- While reset is asserted the block is in its reset state (R250). -/
  reset_idle : s.resetIn = true → s.phase = .idle

/-- The block accepts any access: reset is released and BUSY = 0 (R255). -/
def State.Ready (s : State) : Prop := s.resetIn = false ∧ s.busy = false

/-- A schedule in which the reset input stays as it is. -/
def noReset (turns : List Config.Turn) : Bool := turns.all fun t => t == .host || t == .engine

/-- A message as the host delivers it: for each ABSORB its CNT, and the word it writes to DATA before it, if it writes one
(R253: the DATA write may be left out when DATA already holds the bytes). -/
abbrev Delivery := List (Option Word × BitVec 2)

/-- The message bytes a delivery absorbs, DATA holding `data` before it (R108, R253). -/
def Delivery.bytes (data : Word) : Delivery → List Byte
  | [] => []
  | (v, cnt) :: rest => absorbBytes (v.getD data) cnt ++ Delivery.bytes (v.getD data) rest

/-- The accesses of a delivery. -/
def Delivery.accesses (cs : Delivery) : List HostOp :=
  cs.flatMap fun c => (c.1.map fun v => encode (.wrData v)).toList ++ [encode (.absorb c.2)]

/-- The whole sequence for one message: INIT, the delivery, FINAL (R253). -/
def Delivery.messageAccesses (cs : Delivery) : List HostOp :=
  encode .init :: cs.accesses ++ [encode .final]

/-- `n` steps, stopping where a step stops. -/
def runSteps : Nat → State → Outcome
  | 0, s => .next s
  | n + 1, s =>
    match step s with
    | .next t => runSteps n t
    | .fault r => .fault r
    | .refused r => .refused r

/-- A run from `s` never stops: the core has no failure modes (R100, R129). -/
def SafeFrom (s : State) : Prop := ∀ n, ∃ t, runSteps n s = .next t

end Sys2Proof.Machine
end

