-- ==== Sys2Proof/Certificates/Slice0/Obligations.lean ====
section
/-! DEFINITION. The statements for the provers, in the order of OBLIGATIONS.json. None is proved here.
Where a statement gives port and response, that clause is about the host's side of the bus, which is the model's own
(logs 1, 21); what is said of the block is the rules'. -/

open Sys2Proof Sys2Proof.Machine

/-! ### Encoding -/

/-- R71, R73, R76: words written out from the encodings decode to the instructions they stand for. -/
def Obligations.WrittenOutWordsDecode : Prop :=
  decode (.command 0b00000000000000000000000000000000#32) = .nop ∧
  decode (.command 0b00010000000000000000000000000000#32) = .init ∧
  decode (.command 0b00100000000000000000000000000000#32) = .absorb 0 ∧
  decode (.command 0b00100011000000000000000000000000#32) = .absorb 3 ∧
  decode (.command 0b00110000000000000000000000000000#32) = .final ∧
  decode (.command 0b01000000000000000000000000000000#32) = .clrerr ∧
  decode (.command 0b01010000000000000000000000000000#32) = .illegal 0x50000000 ∧
  decode (.access 0b1000000#7 .w32 0x30000000) = .wrCmd 0x30000000 ∧
  decode (.access 0b1001000#7 .w32 0x00636261) = .wrData 0x00636261 ∧
  decode (.access 0b1000100#7 .w32 0xFFFFFFFF) = .wrIgnored 0x04 0xFFFFFFFF ∧
  decode (.access 0b0000100#7 .w32 0) = .rdStatus ∧
  decode (.access 0b0101100#7 .w32 0) = .rdAcc 3 ∧
  decode (.access 0b0001100#7 .w32 0) = .rdReserved 0x0C ∧
  decode (.access 0b0000110#7 .w32 0) = .busError .read 0x06 .w32 0 ∧
  decode (.access 0b1001000#7 .w8 0) = .busError .write 0x08 .w8 0

/-- Decoding the encoding of a well-formed instruction gives it back, every operand at every value. -/
def Obligations.DecodeOfEncodeIsTheInstruction : Prop :=
  ∀ i : Instr, i.wf = true → decode (encode i) = i

/-- Every encoded form has one meaning: its instruction is well formed and encodes to the form again. What a form the
host issues carries on the data lanes of a read is log 13. -/
def Obligations.EncodeOfDecodeIsTheWord : Prop :=
  ∀ op : HostOp, (decode op).wf = true ∧ (op.canonical = true → encode (decode op) = op)

/-- R73: exactly eight words are legal commands; every other word is illegal, is not executed and records ILLEGAL.
That the access leaves the port and is answered `written` is the model's (logs 1, 21). -/
def Obligations.ExactlyEightWordsAreLegal : Prop :=
  decodeCommand 0x00000000 = .nop ∧ decodeCommand 0x10000000 = .init ∧
  decodeCommand 0x20000000 = .absorb 0 ∧ decodeCommand 0x21000000 = .absorb 1 ∧
  decodeCommand 0x22000000 = .absorb 2 ∧ decodeCommand 0x23000000 = .absorb 3 ∧
  decodeCommand 0x30000000 = .final ∧ decodeCommand 0x40000000 = .clrerr ∧
  (∀ w : Word, (w &&& 0xFCFFFFFF = 0x20000000 ↔
    w = 0x20000000 ∨ w = 0x21000000 ∨ w = 0x22000000 ∨ w = 0x23000000)) ∧
  (∀ w : Word, w ∉ legalWords ↔
    (w.extractLsb' 28 4).toNat ≥ 5 ∨ w.extractLsb' 26 2 ≠ 0 ∨ w.extractLsb' 0 24 ≠ 0 ∨
      (w.extractLsb' 24 2 ≠ 0 ∧ w.extractLsb' 28 4 ≠ 2)) ∧
  (∀ w : Word, w ∉ legalWords → decodeCommand w = .illegal w) ∧
  (∀ (w : Word) (s : State), w ∉ legalWords → s.Ready → s.err = false → exec (.wrCmd w) s = .next { s with
    err := true, errcode := .illegal, port := s.port.tail, response := some .written })

/-- R76: the access word of every register and every direction, and the BusErrors. -/
def Obligations.AccessWordsSelectTheirAccess : Prop :=
  (∀ (dir : Dir) (off : Offset) (width : Width) (v : Word),
    (off.toNat % 4 ≠ 0 ∨ width ≠ .w32) → decode (.access (accessWord dir off) width v) = .busError dir off width v) ∧
  (∀ v : Word, decode (.access (accessWord .write 0x00) .w32 v) = .wrCmd v) ∧
  (∀ v : Word, decode (.access (accessWord .write 0x08) .w32 v) = .wrData v) ∧
  (∀ (off : Offset) (v : Word), off.toNat % 4 = 0 → off ≠ 0x00 → off ≠ 0x08 →
    decode (.access (accessWord .write off) .w32 v) = .wrIgnored off v) ∧
  (∀ v : Word, decode (.access (accessWord .read 0x00) .w32 v) = .rdCmd) ∧
  (∀ v : Word, decode (.access (accessWord .read 0x04) .w32 v) = .rdStatus) ∧
  (∀ v : Word, decode (.access (accessWord .read 0x08) .w32 v) = .rdData) ∧
  (∀ v : Word, decode (.access (accessWord .read 0x10) .w32 v) = .rdLenLo) ∧
  (∀ v : Word, decode (.access (accessWord .read 0x14) .w32 v) = .rdLenHi) ∧
  (∀ (n : BitVec 2) (v : Word), decode (.access (accessWord .read ((0b10#2 ++ n) ++ 0b00#2)) .w32 v) = .rdAcc n) ∧
  (∀ (off : Offset) (v : Word), off ∈ [0x0C#6, 0x18#6, 0x1C#6, 0x30#6, 0x34#6, 0x38#6, 0x3C#6] →
    decode (.access (accessWord .read off) .w32 v) = .rdReserved off)

/-- R77, R78: every statement of a host program (each register in each direction, every raw offset, each command and
pseudo-instruction) assembles to accesses that decode to the instructions it spells; `wait` is a read of STATUS, carried
out again exactly until it returns BUSY = 0, and no other statement is carried out again. -/
def Obligations.StatementsAssembleToTheirAccesses : Prop :=
  (∀ n1 : BitVec 2, ((Stmt.absorb n1).assemble.map decode = [.wrCmd (cmdw 2 0 n1 0)]) ∧
    decodeCommand (cmdw 2 0 n1 0) = .absorb n1) ∧
  (Stmt.nop.assemble.map decode = [.wrCmd 0x00000000]) ∧ (Stmt.init.assemble.map decode = [.wrCmd 0x10000000]) ∧
  (Stmt.final.assemble.map decode = [.wrCmd 0x30000000]) ∧ (Stmt.clrerr.assemble.map decode = [.wrCmd 0x40000000]) ∧
  (∀ w : Word, (Stmt.cmd w).assemble.map decode = [.wrCmd w]) ∧
  (∀ (reg : Reg) (v : Word), (Stmt.wr reg v).assemble.map decode = [match reg with
    | .cmd => .wrCmd v | .status => .wrIgnored 0x04 v | .data => .wrData v
    | .lenLo => .wrIgnored 0x10 v | .lenHi => .wrIgnored 0x14 v
    | .acc0 => .wrIgnored 0x20 v | .acc1 => .wrIgnored 0x24 v
    | .acc2 => .wrIgnored 0x28 v | .acc3 => .wrIgnored 0x2C v]) ∧
  (∀ reg : Reg, (Stmt.rd reg).assemble.map decode = [match reg with
    | .cmd => .rdCmd | .status => .rdStatus | .data => .rdData | .lenLo => .rdLenLo | .lenHi => .rdLenHi
    | .acc0 => .rdAcc 0 | .acc1 => .rdAcc 1 | .acc2 => .rdAcc 2 | .acc3 => .rdAcc 3]) ∧
  (∀ v : Word, (Stmt.wrAt 0x00 v).assemble.map decode = [.wrCmd v] ∧
    (Stmt.wrAt 0x08 v).assemble.map decode = [.wrData v]) ∧
  (∀ (off : Offset) (v : Word), off.toNat % 4 = 0 → off ≠ 0x00 → off ≠ 0x08 →
    (Stmt.wrAt off v).assemble.map decode = [.wrIgnored off v]) ∧
  (∀ (off : Offset) (v : Word), off.toNat % 4 ≠ 0 →
    (Stmt.wrAt off v).assemble.map decode = [.busError .write off .w32 v] ∧
    (Stmt.rdAt off).assemble.map decode = [.busError .read off .w32 0]) ∧
  ((Stmt.rdAt 0x00).assemble.map decode = [.rdCmd]) ∧ ((Stmt.rdAt 0x04).assemble.map decode = [.rdStatus]) ∧
  ((Stmt.rdAt 0x08).assemble.map decode = [.rdData]) ∧ ((Stmt.rdAt 0x10).assemble.map decode = [.rdLenLo]) ∧
  ((Stmt.rdAt 0x14).assemble.map decode = [.rdLenHi]) ∧
  (∀ n : BitVec 2, (Stmt.rdAt ((0b10#2 ++ n) ++ 0b00#2)).assemble.map decode = [.rdAcc n]) ∧
  (∀ off : Offset, off ∈ [0x0C#6, 0x18#6, 0x1C#6, 0x30#6, 0x34#6, 0x38#6, 0x3C#6] →
    (Stmt.rdAt off).assemble.map decode = [.rdReserved off]) ∧
  (∀ v : Word, (Stmt.absorbw v).assemble.map decode = [.wrData v, .wrCmd 0x23000000]) ∧
  (∀ b : Byte, (Stmt.absorbb b).assemble.map decode = [.wrData (b.setWidth 32), .wrCmd 0x20000000]) ∧
  (Stmt.digest.assemble.map decode = [.rdAcc 0, .rdAcc 1, .rdAcc 2, .rdAcc 3]) ∧
  (Stmt.wait.assemble.map decode = [.rdStatus]) ∧
  (∀ (st : Stmt) (r : Option Response), st.repeats r = false ↔
    st ≠ .wait ∨ ∃ v : Word, r = some (.value v) ∧ v.extractLsb' 0 1 = 0)

/-! ### Step, hold and schedule -/

/-- When it is the host's turn and an access waits, a step is exec of the instruction its word decodes to, in the state
whose schedule has moved on; the same when nothing is scheduled and the engine is at rest. The second clause and the
third are the model's way of choosing and placing (logs 1, 2). -/
def Obligations.StepExecutesTheDecodedAccess : Prop :=
  (∀ (s : State) (op : HostOp) (rest : List HostOp) (ts : List Config.Turn),
    s.port = op :: rest → s.turns = .host :: ts → step s = exec (decode op) { s with turns := ts }) ∧
  (∀ (s : State) (op : HostOp) (rest : List HostOp),
    s.port = op :: rest → s.turns = [] → s.eng = .idle → s.pend = [] → step s = exec (decode op) s) ∧
  (∀ (s : State) (nbits w : Nat) (op : HostOp), HostOp.ofTableWord nbits w = .ok op →
    step (s.withFetchWord nbits w) = exec (decode op) { s with port := op :: s.port })

/-- R58, R61, R255: with BUSY = 1 every access but a STATUS read and a BusError is held: nothing changes and it stays
at the port; a STATUS read and a BusError complete. With reset asserted nothing is accepted (U9, log 10). That a
completed access leaves the port, and what answers a BusError, is the model's (logs 1, 6). -/
def Obligations.BusyHoldsEveryOtherAccess : Prop :=
  (∀ (i : Instr) (s : State), s.busy = true → i ≠ .rdStatus →
    (∀ dir off width v, i ≠ .busError dir off width v) → exec i s = .next s) ∧
  (∀ s : State, s.busy = true → s.resetIn = false →
    exec .rdStatus s = .next { s with port := s.port.tail, response := some (.value s.statusWord) }) ∧
  (∀ (dir : Dir) (off : Offset) (width : Width) (v : Word) (s : State), s.busy = true → s.resetIn = false →
    exec (.busError dir off width v) s =
      .next { s with port := s.port.tail, response := some (.fault (.busError off)) }) ∧
  (∀ (i : Instr) (s : State), s.resetIn = true → exec i s = .next s)

/-- R59: an access leaves the port only from the front, one in a step and only on the host's turn; no step adds or
reorders one, and the response changes only when one leaves. That the port and the response survive a reset is the
model's choice (log 10): a chip may drop waiting accesses. That the host's accesses wait in a list and the last answer
stands beside it is log 1. -/
def Obligations.AccessesLeaveThePortInOrder : Prop :=
  ∀ s t : State, step s = .next t →
    (t.port = s.port ∧ t.response = s.response) ∨ (s.nextTurn.1 = .host ∧ t.port = s.port.tail ∧ t.response.isSome)

/-- R258: with nothing scheduled the engine comes to rest in at most 162 steps, the port and the response meanwhile
unchanged; and at rest it makes no transition. 162 is the model's count of transitions (logs 2, 8). -/
def Obligations.EngineComesToRest : Prop :=
  (∀ s : State, s.Inv → s.resetIn = false → s.turns = [] →
    ∃ n t, n ≤ 162 ∧ runSteps n s = .next t ∧ t.busy = false ∧ t.eng = .idle ∧ t.pend = [] ∧
      t.port = s.port ∧ t.response = s.response ∧ t.turns = []) ∧
  (∀ s : State, s.eng = .idle → s.pend = [] → s.engineTransition = s) ∧
  (∀ s : State, (s.eng ≠ .idle ∨ s.pend ≠ []) → s.engineTransition ≠ s)

/-- R255, R258: a held access is performed: with nothing scheduled, some number of steps after it was held the machine
is exactly where exec of it, in a state with BUSY = 0 and the access still at the front of the port, leads. That an
empty schedule lets the engine move first is log 2, and the port is log 1. -/
def Obligations.HeldAccessIsPerformed : Prop :=
  ∀ (s : State) (op : HostOp) (rest : List HostOp), s.Inv → s.resetIn = false → s.turns = [] → s.port = op :: rest →
    ∃ n t u, runSteps n s = .next t ∧ t.busy = false ∧ t.port = op :: rest ∧ t.data = s.data ∧
      t.phase = s.phase ∧ t.bitlen = s.bitlen ∧ t.fill = s.fill ∧
      runSteps (n + 1) s = .next u ∧ exec (decode op) t = .next u ∧ u.port = rest

/-- Every step from every state answers a next state: the core has no failure modes. For the block this is R100 and
R129. That the machine goes on after a read of ACC without a value and after a BusError is the model's reading (logs
5, 6), and so are that a step while reset is asserted holds the access (log 10) and that a step with nothing to do
answers the same state (log 18). -/
def Obligations.TheMachineNeverStops : Prop :=
  ∀ s : State, SafeFrom s

/-- Nothing waiting and nothing running: the block does nothing and all its state survives (R232). That such a step
answers the same state is log 18. -/
def Obligations.RestingBlockKeepsItsState : Prop :=
  ∀ (s : State) (n : Nat), s.port = [] → s.eng = .idle → s.pend = [] → s.turns = [] →
    runSteps n s = .next s

/-! ### Reset -/

/-- R250: reset, at power-on and at any time, leaves every state the rule gives a value at that value, ACC without a
value, and STATUS reading 0. -/
def Obligations.ResetLeavesTheStatedValues : Prop :=
  ∀ r : State, (r = State.reset ∨ ∃ s : State, r = s.assertReset) →
    r.phase = .idle ∧ r.err = false ∧ r.errcode = .noError ∧ r.busy = false ∧ r.fill = 0 ∧ r.bitlen = 0 ∧
    lenLo r.bitlen = 0 ∧ lenHi r.bitlen = 0 ∧ r.data = 0x00000000 ∧ r.eng = .idle ∧ r.step = 0 ∧ r.pend = [] ∧
    r.acc? = none ∧ r.statusWord = 0x00000000

/-- R251: a reset asserted in any state, BUSY = 1 among them, abandons what runs: the next state is as R250 says and the
accumulator has no value; while it is asserted no access is accepted (U9), and the waiting accesses are kept (the
model's choice, log 10). -/
def Obligations.ResetAbandonsTheCompression : Prop :=
  ∀ (s : State) (ts : List Config.Turn), s.turns = .resetOn :: .resetOff :: ts →
    ∃ t u, step s = .next t ∧ step t = .next u ∧ t.busy = false ∧ t.eng = .idle ∧ t.pend = [] ∧ t.step = 0 ∧
      t.phase = .idle ∧ t.acc? = none ∧ t.fill = 0 ∧ t.bitlen = 0 ∧ t.data = 0 ∧ t.err = false ∧ t.errcode = .noError ∧
      t.resetIn = true ∧ (∀ i, exec i t = .next t) ∧
      u = { t with resetIn := false, turns := ts } ∧ u.port = s.port

/-- After reset ABSORB and FINAL record BAD_PHASE, and INIT is the only command that leaves PHASE = IDLE (R252). -/
def Obligations.OnlyInitLeavesIdle : Prop :=
  ∀ (i : Instr) (s t : State), s.phase = .idle → exec i s = .next t →
    (t.phase = .idle ∨ (t.phase = .absorb ∧ (i = .init ∨ i = .wrCmd 0x10000000))) ∧
    ((∃ cnt, i = .absorb cnt) ∨ i = .final → s.Ready → s.err = false → t.err = true ∧ t.errcode = .badPhase)

/-! ### Commands -/

/-- R191: NOP, its word, no effect in any phase, its illegal neighbours, its example. That the access leaves the port
and is answered `written` is the model's (logs 1, 21). -/
def Obligations.NopHasNoEffect : Prop :=
  decode (.command 0x00000000) = .nop ∧
  (∀ s : State, s.Ready → exec .nop s = .next { s with port := s.port.tail, response := some .written }) ∧
  (∀ w : Word, w.extractLsb' 28 4 = 0 → w ≠ 0x00000000 → decodeCommand w = .illegal w ∧
    ∀ s : State, s.Ready → exec (.wrCmd w) s = .next { s with
      err := true, errcode := if s.err then s.errcode else .illegal,
      port := s.port.tail, response := some .written }) ∧
  (∃ t, exec .nop State.reset = .next t ∧ t.statusWord = 0x00000000)

/-- R170, R171: INIT in every phase sets ACC, FILL, BITLEN and PHASE and nothing else of the block; twice equals once.
That the access leaves the port and is answered `written` is the model's (logs 1, 21). The byte list is the derivation
R170 marks as its own, from R54. -/
def Obligations.InitStartsAMessage : Prop :=
  decode (.command 0x10000000) = .init ∧
  (∀ s : State, s.Ready → exec .init s = .next { s with
    acc := ⟨0x67452301, 0xEFCDAB89, 0x98BADCFE, 0x10325476⟩, fill := 0, bitlen := 0, phase := .absorb,
    port := s.port.tail, response := some .written }) ∧
  (∀ s t : State, s.Ready → exec .init s = .next t →
    exec .init t = .next { t with port := t.port.tail, response := some .written }) ∧
  (∀ w : Word, w.extractLsb' 28 4 = 1 → w ≠ 0x10000000 → decodeCommand w = .illegal w ∧
    ∀ s : State, s.Ready → exec (.wrCmd w) s = .next { s with
      err := true, errcode := if s.err then s.errcode else .illegal,
      port := s.port.tail, response := some .written }) ∧
  (∀ s : State, s.busy = true → exec .init s = .next s) ∧
  (∃ t, exec .init State.reset = .next t ∧ t.statusWord = 0x00000002 ∧ lenLo t.bitlen = 0 ∧ lenHi t.bitlen = 0 ∧
    t.acc? = some ⟨0x67452301, 0xEFCDAB89, 0x98BADCFE, 0x10325476⟩) ∧
  digestBytes ⟨0x67452301, 0xEFCDAB89, 0x98BADCFE, 0x10325476⟩ =
    [0x01, 0x23, 0x45, 0x67, 0x89, 0xAB, 0xCD, 0xEF, 0xFE, 0xDC, 0xBA, 0x98, 0x76, 0x54, 0x32, 0x10]

/-- ABSORB in PHASE = ABSORB (R108): the whole next state. The n = CNT + 1 low bytes of DATA go to BUF from FILL on;
those after the 64th byte wait in PEND; a completed block starts the engine. That the access leaves the port and is
answered `written` is the model's (logs 1, 21). PEND as a list of bytes and FILL counted at once are logs 8 and 9. -/
def Obligations.AbsorbAppendsTheLowBytesOfData : Prop :=
  ∀ (cnt : BitVec 2) (s : State), s.Ready → s.phase = .absorb →
    ∃ t, exec (.absorb cnt) s = .next t ∧
      t.fill = s.fill + BitVec.ofNat 6 (cnt.toNat + 1) ∧
      t.bitlen = s.bitlen + 8 * BitVec.ofNat 64 (cnt.toNat + 1) ∧
      (∀ j : BitVec 6, getByte t.buf j =
        if s.fill.toNat ≤ j.toNat ∧ j.toNat < s.fill.toNat + (cnt.toNat + 1)
        then s.data.extractLsb' (8 * (j.toNat - s.fill.toNat)) 8 else getByte s.buf j) ∧
      t.pend = s.pend ++ ((List.range (cnt.toNat + 1)).drop (64 - s.fill.toNat)).map
        (fun j => s.data.extractLsb' (8 * j) 8) ∧
      (s.fill.toNat + (cnt.toNat + 1) < 64 →
        t.busy = false ∧ t.eng = s.eng ∧ t.step = s.step ∧ t.w = s.w) ∧
      (64 ≤ s.fill.toNat + (cnt.toNat + 1) → t.busy = true ∧ t.eng = .run ∧ t.step = 0 ∧ t.w = s.acc) ∧
      t.acc = s.acc ∧ t.data = s.data ∧ t.phase = s.phase ∧ t.err = s.err ∧ t.errcode = s.errcode ∧
      t.resetIn = s.resetIn ∧ t.turns = s.turns ∧ t.port = s.port.tail ∧ t.response = some .written

/-- FINAL in PHASE = ABSORB (R109): the whole next state. The marker, the zero bytes and the length field go to BUF,
and to PEND for the second block that FILL in 56..63 needs. That the access leaves the port and is answered `written`
is the model's (logs 1, 21). PEND as a list of bytes is log 8. -/
def Obligations.FinalPadsTheMessage : Prop :=
  ∀ s : State, s.Ready → s.phase = .absorb →
    ∃ t, exec .final s = .next t ∧
      t.phase = .done ∧ t.fill = 0 ∧ t.busy = true ∧ t.eng = .run ∧ t.step = 0 ∧ t.w = s.acc ∧
      (∀ j : BitVec 6, getByte t.buf j =
        if j.toNat < s.fill.toNat then getByte s.buf j
        else if j = s.fill then 0x80
        else if s.fill.toNat ≤ 55 ∧ 56 ≤ j.toNat then s.bitlen.extractLsb' (8 * (j.toNat - 56)) 8
        else 0x00) ∧
      t.pend = s.pend ++ (if s.fill.toNat ≤ 55 then [] else
        List.replicate 56 0x00 ++ (List.range 8).map fun q => s.bitlen.extractLsb' (8 * q) 8) ∧
      t.acc = s.acc ∧ t.bitlen = s.bitlen ∧ t.data = s.data ∧ t.err = s.err ∧ t.errcode = s.errcode ∧
      t.resetIn = s.resetIn ∧ t.turns = s.turns ∧ t.port = s.port.tail ∧ t.response = some .written

/-- R222, R223: an erroneous command changes the error record and nothing else of the block, and reports one error:
the word is looked at before the phase. That the access leaves the port and is answered `written` is the model's (logs
1, 21). -/
def Obligations.ErroneousCommandOnlyRecordsItsError : Prop :=
  (∀ (w : Word) (s : State), s.Ready → exec (.illegal w) s = .next { s with
    err := true, errcode := if s.err then s.errcode else .illegal,
    port := s.port.tail, response := some .written }) ∧
  (∀ (cnt : BitVec 2) (s : State), s.Ready → s.phase ≠ .absorb → exec (.absorb cnt) s = .next { s with
    err := true, errcode := if s.err then s.errcode else .badPhase,
    port := s.port.tail, response := some .written }) ∧
  (∀ s : State, s.Ready → s.phase ≠ .absorb → exec .final s = .next { s with
    err := true, errcode := if s.err then s.errcode else .badPhase,
    port := s.port.tail, response := some .written }) ∧
  (∀ (w : Word) (s : State), s.Ready → w ∉ legalWords → exec (.wrCmd w) s = .next { s with
    err := true, errcode := if s.err then s.errcode else .illegal,
    port := s.port.tail, response := some .written })

/-- R193: an illegal word records ILLEGAL, only if ERR was 0, in every phase; its encoding and its example. That the
access leaves the port and is answered `written` is the model's (logs 1, 21). -/
def Obligations.IllegalWordRecordsIllegal : Prop :=
  (∀ w : Word, w ∉ legalWords → decode (.command w) = .illegal w) ∧
  (∀ (w : Word) (s : State), s.Ready → s.err = false → exec (.illegal w) s = .next { s with
    err := true, errcode := .illegal, port := s.port.tail, response := some .written }) ∧
  (∀ (w : Word) (s : State), s.Ready → s.err = true →
    exec (.illegal w) s = .next { s with port := s.port.tail, response := some .written }) ∧
  decode (.command 0x10000001) = .illegal 0x10000001 ∧
  (∃ t, exec (.illegal 0x10000001) State.reset = .next t ∧ t.statusWord = 0x00000018 ∧ t.phase = .idle)

/-- R221: the first error is kept and the later one lost; no instruction but CLRERR changes a recorded error, INIT among
them; reset clears it. -/
def Obligations.RecordedErrorIsSticky : Prop :=
  (∀ (code : ErrCode) (s : State), s.err = false → s.signalError code = { s with err := true, errcode := code }) ∧
  (∀ (code : ErrCode) (s : State), s.err = true → s.signalError code = s) ∧
  (∀ (i : Instr) (s t : State), exec i s = .next t → i ≠ .clrerr → i ≠ .wrCmd 0x40000000 → s.err = true →
    t.err = true ∧ t.errcode = s.errcode) ∧
  (∀ s : State, s.assertReset.err = false ∧ s.assertReset.errcode = .noError)

/-- R192: CLRERR clears the record and nothing else; the message is untouched; its illegal neighbours; its example.
That the access leaves the port and is answered `written` is the model's (logs 1, 21). -/
def Obligations.ClrerrClearsOnlyTheRecord : Prop :=
  decode (.command 0x40000000) = .clrerr ∧
  (∀ s : State, s.Ready → exec .clrerr s = .next { s with
    err := false, errcode := .noError, port := s.port.tail, response := some .written }) ∧
  (∀ w : Word, w.extractLsb' 28 4 = 4 → w ≠ 0x40000000 → decodeCommand w = .illegal w ∧
    ∀ s : State, s.Ready → exec (.wrCmd w) s = .next { s with
      err := true, errcode := if s.err then s.errcode else .illegal,
      port := s.port.tail, response := some .written }) ∧
  (∀ s : State, s.Inv → s.Ready → s.err = false →
    exec .clrerr s = .next { s with port := s.port.tail, response := some .written }) ∧
  (∀ cnt : BitVec 2, ∃ t u, exec (.absorb cnt) State.reset = .next t ∧ t.statusWord = 0x00000028 ∧
    exec .clrerr t = .next u ∧ u.statusWord = 0x00000000)

/-- R190: a write to CMD does what the word's command does, by its legality and its OP field, in every phase, and
whatever ERR is; when the block is ready it completes. That the access leaves the port and is answered `written` is
the model's (logs 1, 21). -/
def Obligations.WrCmdDispatchesOnTheWord : Prop :=
  (∀ (w : Word) (s : State), ¬ (w ∈ [0x00000000#32, 0x10000000#32, 0x30000000#32, 0x40000000#32] ∨
      w &&& 0xFCFFFFFF = 0x20000000) → exec (.wrCmd w) s = exec (.illegal w) s) ∧
  (∀ (w : Word) (s : State), (w ∈ [0x00000000#32, 0x10000000#32, 0x30000000#32, 0x40000000#32] ∨
      w &&& 0xFCFFFFFF = 0x20000000) →
    (w.extractLsb' 28 4 = 0 → exec (.wrCmd w) s = exec .nop s) ∧
    (w.extractLsb' 28 4 = 1 → exec (.wrCmd w) s = exec .init s) ∧
    (w.extractLsb' 28 4 = 2 → exec (.wrCmd w) s = exec (.absorb (w.extractLsb' 24 2)) s) ∧
    (w.extractLsb' 28 4 = 3 → exec (.wrCmd w) s = exec .final s) ∧
    (w.extractLsb' 28 4 = 4 → exec (.wrCmd w) s = exec .clrerr s)) ∧
  (∀ (w : Word) (s : State), s.busy = true → exec (.wrCmd w) s = .next s) ∧
  (∀ (w : Word) (s : State), s.Ready → ∃ t, exec (.wrCmd w) s = .next t ∧ t.port = s.port.tail ∧
    t.response = some .written)

/-- BUSY becomes 1 exactly at an ABSORB or FINAL in PHASE = ABSORB that completes a block (R33, R254). -/
def Obligations.BusyIsSetByBlocksOnly : Prop :=
  ∀ (i : Instr) (s t : State), s.Ready → exec i s = .next t →
    (t.busy = true ↔ s.phase = .absorb ∧
      (i = .final ∨ i = .wrCmd 0x30000000 ∨
       ∃ cnt : BitVec 2, (i = .absorb cnt ∨ i = .wrCmd (cmdw 2 0 cnt 0)) ∧ 64 ≤ s.fill.toNat + (cnt.toNat + 1)))

/-- BITLEN counts 8 a message byte modulo 2^64, without an error at the wrap; FINAL leaves it (R28, R108, R111, C1). -/
def Obligations.BitLengthWrapsWithoutError : Prop :=
  (∀ s : State, s.Ready → s.phase = .absorb → s.bitlen = 0xFFFFFFFFFFFFFFF8 →
    ∃ t, exec (.absorb 0) s = .next t ∧ t.bitlen = 0 ∧ t.err = s.err ∧ t.errcode = s.errcode) ∧
  (∀ (i : Instr) (s t : State), exec i s = .next t →
    t.bitlen = s.bitlen ∨ ((i = .init ∨ i = .wrCmd 0x10000000) ∧ t.bitlen = 0) ∨
      (s.phase = .absorb ∧ ∃ cnt : BitVec 2, (i = .absorb cnt ∨ i = .wrCmd (cmdw 2 0 cnt 0)) ∧
        t.bitlen = s.bitlen + 8 * BitVec.ofNat 64 (cnt.toNat + 1)))

/-! ### Register accesses -/

/-- R195: WR DATA loads DATA and changes nothing else of the block, in every phase; held while BUSY = 1. That the
access leaves the port and is answered `written` is the model's (logs 1, 21). -/
def Obligations.WrDataLoadsData : Prop :=
  (∀ v : Word, decode (.access 0b1001000#7 .w32 v) = .wrData v) ∧
  (∀ (v : Word) (s : State), s.Ready → exec (.wrData v) s = .next { s with
    data := v, port := s.port.tail, response := some .written }) ∧
  (∀ (v : Word) (s : State), s.busy = true → exec (.wrData v) s = .next s)

/-- R30: only host writes to DATA change DATA, whatever the step, but for reset. -/
def Obligations.OnlyWrDataChangesData : Prop :=
  ∀ s t : State, step s = .next t →
    t.data = s.data ∨ s.nextTurn.1 = .resetOn ∨
      (s.nextTurn.1 = .host ∧ ∃ v, s.nextTurn.2.fetch = some (.wrData v) ∧ t.data = v)

/-- R200: writes to read-only and reserved offsets have no effect, reads of reserved offsets return 0 and have none;
both are held while BUSY = 1, and neither records an error. That the access leaves the port and is answered `written`
is the model's (logs 1, 21). -/
def Obligations.IgnoredAndReservedAccesses : Prop :=
  (∀ (off : Offset) (v : Word), off ∈ [0x04#6, 0x10#6, 0x14#6, 0x20#6, 0x24#6, 0x28#6, 0x2C#6, 0x0C#6, 0x18#6, 0x1C#6,
      0x30#6, 0x34#6, 0x38#6, 0x3C#6] → decode (.access (accessWord .write off) .w32 v) = .wrIgnored off v) ∧
  (∀ (off : Offset) (v : Word) (s : State), s.Ready →
    exec (.wrIgnored off v) s = .next { s with port := s.port.tail, response := some .written }) ∧
  (∀ (off : Offset) (v : Word), off ∈ [0x0C#6, 0x18#6, 0x1C#6, 0x30#6, 0x34#6, 0x38#6, 0x3C#6] →
    decode (.access (accessWord .read off) .w32 v) = .rdReserved off) ∧
  (∀ (off : Offset) (s : State), s.Ready →
    exec (.rdReserved off) s = .next { s with port := s.port.tail, response := some (.value 0x00000000) }) ∧
  (∀ (off : Offset) (v : Word) (s : State), s.busy = true →
    exec (.wrIgnored off v) s = .next s ∧ exec (.rdReserved off) s = .next s)

/-- R199: RD CMD returns 0 and has no effect; held while BUSY = 1. That the access leaves the port is the model's (log
1). -/
def Obligations.RdCmdReturnsZero : Prop :=
  (∀ v : Word, decode (.access 0b0000000#7 .w32 v) = .rdCmd) ∧
  (∀ s : State, s.Ready →
    exec .rdCmd s = .next { s with port := s.port.tail, response := some (.value 0x00000000) }) ∧
  (∀ s : State, s.busy = true → exec .rdCmd s = .next s)

/-- R194: RD STATUS never holds and returns the fields at their places; the values that never occur do not. That the
access leaves the port is the model's (log 1). -/
def Obligations.RdStatusReturnsTheFields : Prop :=
  (∀ v : Word, decode (.access 0b0000100#7 .w32 v) = .rdStatus) ∧
  (∀ s : State, s.resetIn = false → ∃ v : Word,
    exec .rdStatus s = .next { s with port := s.port.tail, response := some (.value v) } ∧
    v.extractLsb' 0 1 = BitVec.ofBool s.busy ∧
    v.extractLsb' 1 2 = (match s.phase with | .idle => 0 | .absorb => 1 | .done => 2) ∧
    v.extractLsb' 3 1 = BitVec.ofBool s.err ∧
    v.extractLsb' 4 4 = (match s.errcode with | .noError => 0 | .illegal => 1 | .badPhase => 2) ∧
    v.extractLsb' 8 6 = s.fill ∧ v.extractLsb' 14 18 = 0) ∧
  State.reset.statusWord = 0x00000000

/-- R196: RD DATA returns DATA; held while BUSY = 1; 0 after reset. That the access leaves the port is the model's
(log 1). -/
def Obligations.RdDataReturnsData : Prop :=
  (∀ v : Word, decode (.access 0b0001000#7 .w32 v) = .rdData) ∧
  (∀ s : State, s.Ready → exec .rdData s = .next { s with port := s.port.tail, response := some (.value s.data) }) ∧
  (∀ s : State, s.busy = true → exec .rdData s = .next s) ∧
  (∃ t, exec .rdData State.reset = .next t ∧ t.response = some (.value 0x00000000)) ∧
  (∀ (v : Word) (s t u : State), s.Ready → exec (.wrData v) s = .next t → exec .rdData t = .next u →
    u.response = some (.value v))

/-- RD LEN_LO and RD LEN_HI return the halves of BITLEN; held while BUSY = 1 (R197, R198). That the access leaves the
port is the model's (log 1). -/
def Obligations.RdLenReturnsTheHalvesOfBitlen : Prop :=
  (∀ v : Word, decode (.access 0b0010000#7 .w32 v) = .rdLenLo ∧ decode (.access 0b0010100#7 .w32 v) = .rdLenHi) ∧
  (∀ s : State, s.Ready → ∃ lo hi : Word,
    exec .rdLenLo s = .next { s with port := s.port.tail, response := some (.value lo) } ∧
    exec .rdLenHi s = .next { s with port := s.port.tail, response := some (.value hi) } ∧
    hi ++ lo = s.bitlen) ∧
  (∀ s : State, s.busy = true → exec .rdLenLo s = .next s ∧ exec .rdLenHi s = .next s)

/-- RD ACCn returns the accumulator word outside PHASE = IDLE; held while BUSY = 1 (R175). That the access leaves the
port is the model's (log 1). -/
def Obligations.RdAccReturnsTheAccumulatorWord : Prop :=
  (∀ (n : BitVec 2) (v : Word), decode (.access ((0b010#3 ++ n) ++ 0b00#2) .w32 v) = .rdAcc n) ∧
  (∀ (n : BitVec 2) (s : State), s.Ready → s.phase ≠ .idle → ∃ v : Word,
    exec (.rdAcc n) s = .next { s with port := s.port.tail, response := some (.value v) } ∧
    (n = 0 → v = s.acc.a) ∧ (n = 1 → v = s.acc.b) ∧ (n = 2 → v = s.acc.c) ∧ (n = 3 → v = s.acc.d)) ∧
  (∀ (n : BitVec 2) (s : State), s.busy = true → exec (.rdAcc n) s = .next s)

/-- A read of ACCn in PHASE = IDLE has no value; it is a fault of the reading program, and the block goes on unchanged
(R34, R176; that the machine goes on is the model's reading, log 5). That the access leaves the port is the model's
(log 1). -/
def Obligations.RdAccBeforeInitHasNoValue : Prop :=
  ∀ (n : BitVec 2) (s : State), s.Ready → s.phase = .idle →
    exec (.rdAcc n) s = .next { s with port := s.port.tail, response := some (.fault .accHasNoValue) }

/-- R57, R224: a misaligned or non-32-bit access is answered with an error; no state of the block changes, and no
error is recorded. That the access leaves the port and the machine goes on with a fault as its answer is the model's
(logs 1, 6). -/
def Obligations.BusErrorChangesNoState : Prop :=
  (∀ (dir : Dir) (off : Offset) (width : Width) (v : Word), (off.extractLsb' 0 2 ≠ 0 ∨ width ≠ .w32) →
    decode (.access (accessWord dir off) width v) = .busError dir off width v) ∧
  (∀ (dir : Dir) (off : Offset) (width : Width) (v : Word) (s : State), s.resetIn = false →
    exec (.busError dir off width v) s =
      .next { s with port := s.port.tail, response := some (.fault (.busError off)) })

/-- Reads have no side effects: no read changes anything but the port and the response, and a read repeated answers
the same (R58). That the access leaves the port is the model's (log 1). -/
def Obligations.ReadsHaveNoSideEffects : Prop :=
  ∀ (i : Instr), (i = .rdCmd ∨ i = .rdStatus ∨ i = .rdData ∨ i = .rdLenLo ∨ i = .rdLenHi ∨ (∃ n, i = .rdAcc n) ∨
      (∃ off, i = .rdReserved off)) →
    ∀ s t u : State, exec i s = .next t → exec i t = .next u →
      t = { s with port := t.port, response := t.response } ∧ (s.Ready → u.response = t.response)

/-! ### Engine and compression -/

/-- R132, R133, R134: F selects, G is the majority, H the parity, in each bit position. -/
def Obligations.RoundFunctionsBitByBit : Prop :=
  (∀ x y z : Word, fnF x y z = (x &&& y) ||| (~~~x &&& z) ∧
    fnG x y z = (x &&& y) ||| (x &&& z) ||| (y &&& z) ∧ fnH x y z = x ^^^ y ^^^ z) ∧
  ∀ (x y z : Word) (p : Nat), p < 32 →
    (fnF x y z).getLsbD p = (if x.getLsbD p then y.getLsbD p else z.getLsbD p) ∧
    ((fnG x y z).getLsbD p = true ↔ 2 ≤ [x, y, z].countP fun v => v.getLsbD p) ∧
    ((fnH x y z).getLsbD p = true ↔ ([x, y, z].countP fun v => v.getLsbD p) % 2 = 1)

/-- R135: bit p of the rotated word is bit (p - s) mod 32; only the amounts listed occur. The rule marks this
definition as general knowledge (log 15). -/
def Obligations.RotateMovesEachBit : Prop :=
  (∀ (v : Word) (s p : Nat), 1 ≤ s → s ≤ 31 → p < 32 → (rotl32 v s).getLsbD p = v.getLsbD ((p + 32 - s) % 32)) ∧
  (∀ (r : Round) (i : Fin 16), r.amount i ∈ [3, 5, 7, 9, 11, 13, 15, 19])

/-- R137, R139, R140, R141: the word orders, permutations of 0..15, the rotation amounts, the constants, the round of
each step and its function, and how a step uses them. The step is R142's; the full list of round 2 is the derivation
of R138. -/
def Obligations.RoundTablesAreAsListed : Prop :=
  (List.finRange 16).map (Round.order .one) = [0, 1, 2, 3, 4, 5, 6, 7, 8, 9, 10, 11, 12, 13, 14, 15] ∧
  (List.finRange 16).map (Round.order .two) = [0, 4, 8, 12, 1, 5, 9, 13, 2, 6, 10, 14, 3, 7, 11, 15] ∧
  (List.finRange 16).map (Round.order .three) = [0, 8, 4, 12, 2, 10, 6, 14, 1, 9, 5, 13, 3, 11, 7, 15] ∧
  (∀ r : Round, Function.Bijective r.order) ∧
  (List.finRange 16).map (Round.amount .one) = [3, 7, 11, 19, 3, 7, 11, 19, 3, 7, 11, 19, 3, 7, 11, 19] ∧
  (List.finRange 16).map (Round.amount .two) = [3, 5, 9, 13, 3, 5, 9, 13, 3, 5, 9, 13, 3, 5, 9, 13] ∧
  (List.finRange 16).map (Round.amount .three) = [3, 9, 11, 15, 3, 9, 11, 15, 3, 9, 11, 15, 3, 9, 11, 15] ∧
  Round.const .one = 0x00000000 ∧ Round.const .two = 0x5A827999 ∧ Round.const .three = 0x6ED9EBA1 ∧
  (∀ j : Fin 48, j.val / 16 + 1 = (match Round.ofStep j with | .one => 1 | .two => 2 | .three => 3) ∧
    (stepInRound j).val = j.val % 16) ∧
  Round.fn .one = fnF ∧ Round.fn .two = fnG ∧ Round.fn .three = fnH ∧
  (∀ (buf : Vector Byte 64) (j : Fin 48) (q : Quad),
    engineStep buf j q = ⟨q.d,
      rotl32 (q.a + (Round.ofStep j).fn q.b q.c q.d + blockWord buf ((Round.ofStep j).order (stepInRound j)) +
        (Round.ofStep j).const) ((Round.ofStep j).amount (stepInRound j)), q.b, q.c⟩)

/-- R52, R130: byte j of X[k] is BUF[4k+j]; and while the engine runs no step changes BUF, neither the
engine's own nor one of the host with any access; a reset abandons the block (R251). -/
def Obligations.BlockWordsAreLittleEndian : Prop :=
  (∀ (buf : Vector Byte 64) (k : Fin 16) (j : Nat) (h : j < 4),
    (blockWord buf k).extractLsb' (8 * j) 8 = buf[4 * k.val + j]) ∧
  (∀ s : State, s.eng ≠ .idle → s.engineTransition.buf = s.buf) ∧
  (∀ s t : State, s.Inv → s.eng ≠ .idle → s.nextTurn.1 ≠ .resetOn → step s = .next t → t.buf = s.buf)

/-- R143, R144, R145: after any number of the 48 steps the working registers hold the role rotation of the four variables
of the fixed-variable tables, and after all 48 they hold them in place. -/
def Obligations.FixedVariableTablesAgree : Prop :=
  (∀ (n : Nat) (buf : Vector Byte 64) (q : Quad), n ≤ 48 →
    stepsUpTo n buf q = Quad.rotateBy n (fixedSteps n buf q)) ∧
  (∀ (buf : Vector Byte 64) (q : Quad), allSteps buf q = fixedSteps 48 buf q)

/-- R146, R147: a block started on the engine is, 49 transitions later, compressed: the accumulator has each word of
the 48 steps' result added to it, and nothing else of the block but the engine's own registers and BUSY has changed.
The number 49 (logs 2, 8), STEP at 0 after the block (log 7) and W still holding the steps' result (log 19) are the
model's; the rules leave them open. -/
def Obligations.EngineCompressesTheBlock : Prop :=
  ∀ s : State, s.startBlock.engineRun 49 = { s with
    acc := ⟨s.acc.a + (allSteps s.buf s.acc).a, s.acc.b + (allSteps s.buf s.acc).b,
            s.acc.c + (allSteps s.buf s.acc).c, s.acc.d + (allSteps s.buf s.acc).d⟩,
    w := allSteps s.buf s.acc, step := 0, eng := .idle, busy := !s.pend.isEmpty }

/-- The worked examples of R142, R147 and R109: the first step on the empty message's block, and the blocks of "abc" and
of the empty message. -/
def Obligations.WorkedCompressionExamples : Prop :=
  engineStep (blockAt (pad []) 0) 0 initialState = ⟨0x10325476, 0x000003F8, 0xEFCDAB89, 0x98BADCFE⟩ ∧
  compress initialState (blockAt (pad [0x61, 0x62, 0x63]) 0) = ⟨0x7A0148A4, 0x52D821AF, 0xE80AC15F, 0x9D72A67A⟩ ∧
  compress initialState (blockAt (pad []) 0) = ⟨0xE0CFD631, 0x31E96AD1, 0xD7593CB7, 0xC089C0E0⟩

/-- While the engine runs only ACC, BUF and the hidden W, STEP, ENG, PEND and BUSY change: every field of STATUS but
BUSY, BITLEN and DATA hold the values the accepted command left (R256). Port and response are log 1. -/
def Obligations.EngineLeavesTheVisibleFields : Prop :=
  (∀ s t : State, s.nextTurn.1 = .engine → step s = .next t →
    t.phase = s.phase ∧ t.fill = s.fill ∧ t.err = s.err ∧ t.errcode = s.errcode ∧ t.bitlen = s.bitlen ∧
    t.data = s.data ∧ t.resetIn = s.resetIn ∧ t.port = s.port ∧ t.response = s.response ∧
    t.statusWord.extractLsb' 1 31 = s.statusWord.extractLsb' 1 31) ∧
  (∀ s : State, s.Ready → s.phase = .absorb → ∃ t, exec .final s = .next t ∧ t.busy = true ∧
    t.statusWord.extractLsb' 1 2 = 2 ∧ t.statusWord.extractLsb' 8 6 = 0)

/-- Only INIT and the feed-forward write ACC, whatever the step, but for reset (R20, R172). -/
def Obligations.OnlyInitAndFeedForwardWriteAcc : Prop :=
  ∀ s t : State, step s = .next t →
    t.acc = s.acc ∨
    (s.nextTurn.1 = .engine ∧ s.eng = .ff ∧
      t.acc = ⟨s.acc.a + s.w.a, s.acc.b + s.w.b, s.acc.c + s.w.c, s.acc.d + s.w.d⟩) ∨
    (s.nextTurn.1 = .host ∧ (s.nextTurn.2.fetch = some .init ∨ s.nextTurn.2.fetch = some (.wrCmd 0x10000000)) ∧
      t.acc = ⟨0x67452301, 0xEFCDAB89, 0x98BADCFE, 0x10325476⟩ ∧ t.phase = .absorb) ∨
    (s.nextTurn.1 = .resetOn ∧ t.acc? = none)

/-- R31: INIT sets ABSORB from any phase, FINAL sets DONE from ABSORB, nothing but reset returns to IDLE, and the code 3
never occurs. -/
def Obligations.PhaseMovesOnlyByInitFinalReset : Prop :=
  (∀ s t : State, step s = .next t →
    t.phase = s.phase ∨
    (s.nextTurn.1 = .resetOn ∧ t.phase = .idle) ∨
    (s.nextTurn.1 = .host ∧ (s.nextTurn.2.fetch = some .init ∨ s.nextTurn.2.fetch = some (.wrCmd 0x10000000)) ∧
      t.phase = .absorb) ∨
    (s.nextTurn.1 = .host ∧ (s.nextTurn.2.fetch = some .final ∨ s.nextTurn.2.fetch = some (.wrCmd 0x30000000)) ∧
      s.phase = .absorb ∧ t.phase = .done)) ∧
  (∀ s : State, s.Ready → ∃ t, exec .init s = .next t ∧ t.phase = .absorb) ∧
  (∀ s : State, s.Ready → s.phase = .absorb → ∃ t, exec .final s = .next t ∧ t.phase = .done) ∧
  Phase.idle.code = 0 ∧ Phase.absorb.code = 1 ∧ Phase.done.code = 2 ∧ (∀ p : Phase, p.code ≠ 3) ∧
  State.reset.phase = .idle

/-- The digest stays until the next INIT or reset: in PHASE = DONE with BUSY = 0 a step changes ACC only by INIT or reset
(R174). -/
def Obligations.DigestStaysUntilInitOrReset : Prop :=
  ∀ s t : State, s.Inv → s.phase = .done → s.busy = false → step s = .next t →
    (t.acc = s.acc ∧ t.phase = .done ∧ t.busy = false) ∨ s.nextTurn.1 = .resetOn ∨
    (s.nextTurn.1 = .host ∧ (s.nextTurn.2.fetch = some .init ∨ s.nextTurn.2.fetch = some (.wrCmd 0x10000000)))

/-! ### Invariant, refinement, message digest -/

/-- The state after reset meets the invariant. Its clauses are those of State.Inv; the one about STEP outside ENG_RUN
is log 7. -/
def Obligations.ResetMeetsTheInvariant : Prop :=
  State.reset.Inv

/-- Every step, of the host, the engine or the reset input, keeps the invariant: BUSY is 1 exactly while the engine
has work, FILL is the number of message bytes modulo 64, BITLEN is 8 times it, ERRCODE is NONE exactly when ERR = 0,
PEND is short. That STEP is 0 in ENG_FF and after a block is the model's (log 7): R24 says only that it holds 0..47.
That PHASE stays IDLE while reset is asserted is log 10, BUSY as a bit of its own log 17, FILL and PEND logs 8 and 9. -/
def Obligations.EveryStepKeepsTheInvariant : Prop :=
  ∀ s t : State, s.Inv → step s = .next t → t.Inv

/-- R107, R258: once the engine has come to rest after a command, the block is where the command performed as one atomic
operation leads: AppendByte by AppendByte, each seeing the completed Compress. -/
def Obligations.CommandsRefineTheirAtomicForm : Prop :=
  ∀ (c : Command) (s : State), s.Inv → s.Ready →
    ∃ t, exec c.toInstr s = .next t ∧ t.settle.busy = false ∧ t.settle.arch = s.arch.command c

/-- Accesses take effect one at a time and in arrival order, each as one atomic operation, and the interleaving of the
host's and the engine's turns makes no difference: from any state, under every schedule without a reset, the run comes
to rest with every access performed, in the state that performing them atomically in order gives (R59, R61, R258). The
schedule as a list is log 2; that the accesses waiting behind one that ends with a fault are performed is logs 5 and 6. -/
def Obligations.EveryScheduleGivesTheAtomicResult : Prop :=
  ∀ (s : State) (turns : List Config.Turn), s.Inv → s.resetIn = false → noReset turns = true →
    ∃ n t, runSteps n { s with turns := turns } = .next t ∧
      t.port = [] ∧ t.turns = [] ∧ t.busy = false ∧
      t.arch = (s.port.map decode).foldl Arch.access s.settle.arch

/-- R100, R102 to R105: the padder's contract, its bytes and the number of blocks. The formulas for the zero count and
the block count are the derivations R103 and R105 mark as their own. -/
def Obligations.PaddingMeetsItsContract : Prop :=
  ∀ m : List Byte,
    m <+: pad m ∧ 0 < (pad m).length ∧ (pad m).length % 64 = 0 ∧
    (pad m).length = m.length + 1 + zeroCount m.length + 8 ∧ (pad m).length = 64 * blockCount m.length ∧
    zeroCount m.length ≤ 63 ∧ ((zeroCount m.length : Int) = (55 - (m.length : Int)) % 64) ∧
    (m.length + 1 + zeroCount m.length) % 64 = 56 ∧
    (pad m)[m.length]? = some 0x80 ∧
    (∀ k, k < zeroCount m.length → (pad m)[m.length + 1 + k]? = some 0x00) ∧
    (∀ q, q < 8 → (pad m)[m.length + 1 + zeroCount m.length + q]? =
      some ((BitVec.ofNat 64 (8 * m.length)).extractLsb' (8 * q) 8)) ∧
    blockCount m.length = m.length / 64 + 1 + (if 56 ≤ m.length % 64 then 1 else 0)

/-- R54: digest byte 4n + j is byte j of ACC[n], 16 bytes in all. -/
def Obligations.DigestIsPackedLittleEndian : Prop :=
  ∀ (q : Quad) (j : Nat), j < 4 →
    (digestBytes q).length = 16 ∧
    (digestBytes q)[j]? = some (q.a.extractLsb' (8 * j) 8) ∧ (digestBytes q)[4 + j]? = some (q.b.extractLsb' (8 * j) 8) ∧
    (digestBytes q)[8 + j]? = some (q.c.extractLsb' (8 * j) 8) ∧
    (digestBytes q)[12 + j]? = some (q.d.extractLsb' (8 * j) 8)

/-- R110: INIT, ABSORBs whose bytes in order form the message, FINAL: whatever the grouping into ABSORBs, whatever is
still running before, and under every interleaving of the host's and the engine's turns, the run comes to the state in
which ACC holds what the source's padder and pipeline give for the message. The schedule as a list is log 2. -/
def Obligations.MessageIsHashedUnderEverySchedule : Prop :=
  ∀ (s : State) (cs : Delivery) (turns : List Config.Turn), s.Inv → s.resetIn = false → noReset turns = true →
    ∃ n t, runSteps n { s with port := cs.messageAccesses, turns := turns } = .next t ∧
      t.port = [] ∧ t.turns = [] ∧ t.busy = false ∧ t.phase = .done ∧
      t.acc = messageState (cs.bytes s.data) ∧ t.bitlen = BitVec.ofNat 64 (8 * (cs.bytes s.data).length) ∧
      t.err = s.err ∧ t.errcode = s.errcode

/-- R50, R62, R230: an access reaches the instance whose window holds its address and no other; an address in no
window reaches none; a step of one instance leaves the others as they are. The platform as a list is log 16. -/
def Obligations.InstancesShareNothing : Prop :=
  (∀ (p : Platform) (dir : Dir) (addr : Nat) (width : Width) (v : Word) (x : Instance),
    x ∈ p.deliver dir addr width v → ∃ y ∈ p, x.place = y.place ∧
      (addr < y.place.base ∨ y.place.base + 64 ≤ addr → x.state = y.state)) ∧
  (∀ (p : Platform) (dir : Dir) (addr : Nat) (width : Width) (v : Word) (i j : Fin p.length), p.wf = true → i ≠ j →
    p[i].place.base ≤ addr → addr < p[i].place.base + 64 →
    (p.deliver dir addr width v)[j]? = some p[j] ∧
    (p.deliver dir addr width v)[i]? = some { p[i] with
      state := { p[i].state with port := p[i].state.port ++
        [.access (accessWord dir (BitVec.ofNat 6 (addr - p[i].place.base))) width v] } }) ∧
  (∀ (p q : Platform) (k j : Fin p.length), p.stepAt k = .next q → j ≠ k → q[j]? = some p[j])

/-! ### Host programs -/

/-- R78: `wait` is `rd STATUS`, repeated until STATUS.BUSY = 0. When its read is answered, the host is done with it if the
word has BUSY = 0 and else carries it out again; and under every schedule without a reset it ends: every read but the
last returned BUSY = 1, the last BUSY = 0, which is STATUS then, and the block is where the engine's rest leads, with
nothing else changed. When the host issues an access is log 22, the schedule log 2. -/
def Obligations.WaitReadsStatusUntilBusyIsZero : Prop :=
  (∀ (p : HostProgram) (v : Word), p.current = some .wait → p.block.port = [] → p.block.response = some (.value v) →
    (v.extractLsb' 0 1 = 1 → p.step = .next { p with current := none, todo := .wait :: p.todo }) ∧
    (v.extractLsb' 0 1 = 0 → p.step = .next { p with current := none })) ∧
  (∀ (p : HostProgram) (rest : List Stmt), p.current = none → p.block.port = [] → p.todo = .wait :: rest →
    p.step = .next { p with
      block := { p.block with port := [.access 0b0000100#7 .w32 0] }, current := some .wait, todo := rest }) ∧
  (∀ s : State, s.Inv → s.resetIn = false → s.port = [] → noReset s.turns = true →
    ∃ n q, ∃ vs : List Word, HostProgram.runSteps n (.start s [.wait]) = .next q ∧ q.Finished ∧
      q.answers = (vs ++ [q.block.statusWord]).map .value ∧
      (∀ v ∈ vs, v.extractLsb' 0 1 = 1) ∧ q.block.statusWord.extractLsb' 0 1 = 0 ∧ q.block.Ready ∧
      q.block.arch = s.settle.arch)

/-- R77, R78, R255: a host program, whatever its statements, is carried out to its end under every schedule without a
reset, and leaves the block where its accesses performed atomically in order lead; a `wait` in it is never needed: the
result is that of the program without its `wait`s. That a program goes on after an access answered by a BusError, or by a
read of ACC without a value, is the model's choice (log 23; R224 and U10 leave it to the platform). When the host issues an
access is log 22, the schedule log 2. -/
def Obligations.ProgramGivesTheAtomicResultWithOrWithoutWait : Prop :=
  ∀ (s : State) (prog : List Stmt), s.Inv → s.resetIn = false → s.port = [] → noReset s.turns = true →
    ∃ n q, HostProgram.runSteps n (.start s prog) = .next q ∧ q.Finished ∧ q.block.resetIn = false ∧
      q.block.settle.arch = ((prog.flatMap Stmt.assemble).map decode).foldl Arch.access s.settle.arch ∧
      q.block.settle.arch =
        (((prog.filter (· ≠ .wait)).flatMap Stmt.assemble).map decode).foldl Arch.access s.settle.arch
end

