-- ==== Sys2Proof/Laws/State.lean ====
section
/-! SUPPORT. One lemma for each field under each of the shared operations on State, so that no proof unfolds a record
update. -/

namespace Sys2Proof.Machine

namespace State

variable (s : State)

/-! ### complete -/

@[simp] theorem complete_acc (r : Response) : (s.complete r).acc = s.acc := rfl
@[simp] theorem complete_w (r : Response) : (s.complete r).w = s.w := rfl
@[simp] theorem complete_step (r : Response) : (s.complete r).step = s.step := rfl
@[simp] theorem complete_eng (r : Response) : (s.complete r).eng = s.eng := rfl
@[simp] theorem complete_buf (r : Response) : (s.complete r).buf = s.buf := rfl
@[simp] theorem complete_fill (r : Response) : (s.complete r).fill = s.fill := rfl
@[simp] theorem complete_bitlen (r : Response) : (s.complete r).bitlen = s.bitlen := rfl
@[simp] theorem complete_pend (r : Response) : (s.complete r).pend = s.pend := rfl
@[simp] theorem complete_data (r : Response) : (s.complete r).data = s.data := rfl
@[simp] theorem complete_phase (r : Response) : (s.complete r).phase = s.phase := rfl
@[simp] theorem complete_err (r : Response) : (s.complete r).err = s.err := rfl
@[simp] theorem complete_errcode (r : Response) : (s.complete r).errcode = s.errcode := rfl
@[simp] theorem complete_busy (r : Response) : (s.complete r).busy = s.busy := rfl
@[simp] theorem complete_resetIn (r : Response) : (s.complete r).resetIn = s.resetIn := rfl
@[simp] theorem complete_port (r : Response) : (s.complete r).port = s.port.tail := rfl
@[simp] theorem complete_response (r : Response) : (s.complete r).response = some r := rfl
@[simp] theorem complete_turns (r : Response) : (s.complete r).turns = s.turns := rfl

/-! ### clearError -/

@[simp] theorem clearError_acc : s.clearError.acc = s.acc := rfl
@[simp] theorem clearError_w : s.clearError.w = s.w := rfl
@[simp] theorem clearError_step : s.clearError.step = s.step := rfl
@[simp] theorem clearError_eng : s.clearError.eng = s.eng := rfl
@[simp] theorem clearError_buf : s.clearError.buf = s.buf := rfl
@[simp] theorem clearError_fill : s.clearError.fill = s.fill := rfl
@[simp] theorem clearError_bitlen : s.clearError.bitlen = s.bitlen := rfl
@[simp] theorem clearError_pend : s.clearError.pend = s.pend := rfl
@[simp] theorem clearError_data : s.clearError.data = s.data := rfl
@[simp] theorem clearError_phase : s.clearError.phase = s.phase := rfl
@[simp] theorem clearError_err : s.clearError.err = false := rfl
@[simp] theorem clearError_errcode : s.clearError.errcode = .noError := rfl
@[simp] theorem clearError_busy : s.clearError.busy = s.busy := rfl
@[simp] theorem clearError_resetIn : s.clearError.resetIn = s.resetIn := rfl
@[simp] theorem clearError_port : s.clearError.port = s.port := rfl
@[simp] theorem clearError_response : s.clearError.response = s.response := rfl
@[simp] theorem clearError_turns : s.clearError.turns = s.turns := rfl

/-! ### startBlock -/

@[simp] theorem startBlock_acc : s.startBlock.acc = s.acc := rfl
@[simp] theorem startBlock_w : s.startBlock.w = s.acc := rfl
@[simp] theorem startBlock_step : s.startBlock.step = 0 := rfl
@[simp] theorem startBlock_eng : s.startBlock.eng = .run := rfl
@[simp] theorem startBlock_buf : s.startBlock.buf = s.buf := rfl
@[simp] theorem startBlock_fill : s.startBlock.fill = s.fill := rfl
@[simp] theorem startBlock_bitlen : s.startBlock.bitlen = s.bitlen := rfl
@[simp] theorem startBlock_pend : s.startBlock.pend = s.pend := rfl
@[simp] theorem startBlock_data : s.startBlock.data = s.data := rfl
@[simp] theorem startBlock_phase : s.startBlock.phase = s.phase := rfl
@[simp] theorem startBlock_err : s.startBlock.err = s.err := rfl
@[simp] theorem startBlock_errcode : s.startBlock.errcode = s.errcode := rfl
@[simp] theorem startBlock_busy : s.startBlock.busy = true := rfl
@[simp] theorem startBlock_resetIn : s.startBlock.resetIn = s.resetIn := rfl
@[simp] theorem startBlock_port : s.startBlock.port = s.port := rfl
@[simp] theorem startBlock_response : s.startBlock.response = s.response := rfl
@[simp] theorem startBlock_turns : s.startBlock.turns = s.turns := rfl

/-! ### runStep -/

@[simp] theorem runStep_acc : s.runStep.acc = s.acc := rfl
@[simp] theorem runStep_w : s.runStep.w = engineStep s.buf s.step s.w := rfl
@[simp] theorem runStep_step : s.runStep.step = s.step + 1 := rfl
@[simp] theorem runStep_eng : s.runStep.eng = (if s.step = 47 then .ff else .run) := rfl
@[simp] theorem runStep_buf : s.runStep.buf = s.buf := rfl
@[simp] theorem runStep_fill : s.runStep.fill = s.fill := rfl
@[simp] theorem runStep_bitlen : s.runStep.bitlen = s.bitlen := rfl
@[simp] theorem runStep_pend : s.runStep.pend = s.pend := rfl
@[simp] theorem runStep_data : s.runStep.data = s.data := rfl
@[simp] theorem runStep_phase : s.runStep.phase = s.phase := rfl
@[simp] theorem runStep_err : s.runStep.err = s.err := rfl
@[simp] theorem runStep_errcode : s.runStep.errcode = s.errcode := rfl
@[simp] theorem runStep_busy : s.runStep.busy = s.busy := rfl
@[simp] theorem runStep_resetIn : s.runStep.resetIn = s.resetIn := rfl
@[simp] theorem runStep_port : s.runStep.port = s.port := rfl
@[simp] theorem runStep_response : s.runStep.response = s.response := rfl
@[simp] theorem runStep_turns : s.runStep.turns = s.turns := rfl

/-! ### finishBlock -/

@[simp] theorem finishBlock_acc : s.finishBlock.acc = feedForward s.acc s.w := rfl
@[simp] theorem finishBlock_w : s.finishBlock.w = s.w := rfl
@[simp] theorem finishBlock_step : s.finishBlock.step = s.step := rfl
@[simp] theorem finishBlock_eng : s.finishBlock.eng = .idle := rfl
@[simp] theorem finishBlock_buf : s.finishBlock.buf = s.buf := rfl
@[simp] theorem finishBlock_fill : s.finishBlock.fill = s.fill := rfl
@[simp] theorem finishBlock_bitlen : s.finishBlock.bitlen = s.bitlen := rfl
@[simp] theorem finishBlock_pend : s.finishBlock.pend = s.pend := rfl
@[simp] theorem finishBlock_data : s.finishBlock.data = s.data := rfl
@[simp] theorem finishBlock_phase : s.finishBlock.phase = s.phase := rfl
@[simp] theorem finishBlock_err : s.finishBlock.err = s.err := rfl
@[simp] theorem finishBlock_errcode : s.finishBlock.errcode = s.errcode := rfl
@[simp] theorem finishBlock_busy : s.finishBlock.busy = !s.pend.isEmpty := rfl
@[simp] theorem finishBlock_resetIn : s.finishBlock.resetIn = s.resetIn := rfl
@[simp] theorem finishBlock_port : s.finishBlock.port = s.port := rfl
@[simp] theorem finishBlock_response : s.finishBlock.response = s.response := rfl
@[simp] theorem finishBlock_turns : s.finishBlock.turns = s.turns := rfl

/-! ### arrive -/

@[simp] theorem arrive_acc (op : HostOp) : (s.arrive op).acc = s.acc := rfl
@[simp] theorem arrive_w (op : HostOp) : (s.arrive op).w = s.w := rfl
@[simp] theorem arrive_step (op : HostOp) : (s.arrive op).step = s.step := rfl
@[simp] theorem arrive_eng (op : HostOp) : (s.arrive op).eng = s.eng := rfl
@[simp] theorem arrive_buf (op : HostOp) : (s.arrive op).buf = s.buf := rfl
@[simp] theorem arrive_fill (op : HostOp) : (s.arrive op).fill = s.fill := rfl
@[simp] theorem arrive_bitlen (op : HostOp) : (s.arrive op).bitlen = s.bitlen := rfl
@[simp] theorem arrive_pend (op : HostOp) : (s.arrive op).pend = s.pend := rfl
@[simp] theorem arrive_data (op : HostOp) : (s.arrive op).data = s.data := rfl
@[simp] theorem arrive_phase (op : HostOp) : (s.arrive op).phase = s.phase := rfl
@[simp] theorem arrive_err (op : HostOp) : (s.arrive op).err = s.err := rfl
@[simp] theorem arrive_errcode (op : HostOp) : (s.arrive op).errcode = s.errcode := rfl
@[simp] theorem arrive_busy (op : HostOp) : (s.arrive op).busy = s.busy := rfl
@[simp] theorem arrive_resetIn (op : HostOp) : (s.arrive op).resetIn = s.resetIn := rfl
@[simp] theorem arrive_port (op : HostOp) : (s.arrive op).port = s.port ++ [op] := rfl
@[simp] theorem arrive_response (op : HostOp) : (s.arrive op).response = s.response := rfl
@[simp] theorem arrive_turns (op : HostOp) : (s.arrive op).turns = s.turns := rfl

/-! ### place -/

@[simp] theorem place_acc (op : HostOp) : (s.place op).acc = s.acc := rfl
@[simp] theorem place_w (op : HostOp) : (s.place op).w = s.w := rfl
@[simp] theorem place_step (op : HostOp) : (s.place op).step = s.step := rfl
@[simp] theorem place_eng (op : HostOp) : (s.place op).eng = s.eng := rfl
@[simp] theorem place_buf (op : HostOp) : (s.place op).buf = s.buf := rfl
@[simp] theorem place_fill (op : HostOp) : (s.place op).fill = s.fill := rfl
@[simp] theorem place_bitlen (op : HostOp) : (s.place op).bitlen = s.bitlen := rfl
@[simp] theorem place_pend (op : HostOp) : (s.place op).pend = s.pend := rfl
@[simp] theorem place_data (op : HostOp) : (s.place op).data = s.data := rfl
@[simp] theorem place_phase (op : HostOp) : (s.place op).phase = s.phase := rfl
@[simp] theorem place_err (op : HostOp) : (s.place op).err = s.err := rfl
@[simp] theorem place_errcode (op : HostOp) : (s.place op).errcode = s.errcode := rfl
@[simp] theorem place_busy (op : HostOp) : (s.place op).busy = s.busy := rfl
@[simp] theorem place_resetIn (op : HostOp) : (s.place op).resetIn = s.resetIn := rfl
@[simp] theorem place_port (op : HostOp) : (s.place op).port = op :: s.port := rfl
@[simp] theorem place_response (op : HostOp) : (s.place op).response = s.response := rfl
@[simp] theorem place_turns (op : HostOp) : (s.place op).turns = .host :: s.turns := rfl

/-! ### releaseReset -/

@[simp] theorem releaseReset_acc : s.releaseReset.acc = s.acc := rfl
@[simp] theorem releaseReset_w : s.releaseReset.w = s.w := rfl
@[simp] theorem releaseReset_step : s.releaseReset.step = s.step := rfl
@[simp] theorem releaseReset_eng : s.releaseReset.eng = s.eng := rfl
@[simp] theorem releaseReset_buf : s.releaseReset.buf = s.buf := rfl
@[simp] theorem releaseReset_fill : s.releaseReset.fill = s.fill := rfl
@[simp] theorem releaseReset_bitlen : s.releaseReset.bitlen = s.bitlen := rfl
@[simp] theorem releaseReset_pend : s.releaseReset.pend = s.pend := rfl
@[simp] theorem releaseReset_data : s.releaseReset.data = s.data := rfl
@[simp] theorem releaseReset_phase : s.releaseReset.phase = s.phase := rfl
@[simp] theorem releaseReset_err : s.releaseReset.err = s.err := rfl
@[simp] theorem releaseReset_errcode : s.releaseReset.errcode = s.errcode := rfl
@[simp] theorem releaseReset_busy : s.releaseReset.busy = s.busy := rfl
@[simp] theorem releaseReset_resetIn : s.releaseReset.resetIn = false := rfl
@[simp] theorem releaseReset_port : s.releaseReset.port = s.port := rfl
@[simp] theorem releaseReset_response : s.releaseReset.response = s.response := rfl
@[simp] theorem releaseReset_turns : s.releaseReset.turns = s.turns := rfl

/-! ### signalError: only ERR and ERRCODE (R221, R222) -/

@[simp] theorem signalError_acc (c : ErrCode) : (s.signalError c).acc = s.acc := by
  unfold signalError; split <;> rfl
@[simp] theorem signalError_w (c : ErrCode) : (s.signalError c).w = s.w := by
  unfold signalError; split <;> rfl
@[simp] theorem signalError_step (c : ErrCode) : (s.signalError c).step = s.step := by
  unfold signalError; split <;> rfl
@[simp] theorem signalError_eng (c : ErrCode) : (s.signalError c).eng = s.eng := by
  unfold signalError; split <;> rfl
@[simp] theorem signalError_buf (c : ErrCode) : (s.signalError c).buf = s.buf := by
  unfold signalError; split <;> rfl
@[simp] theorem signalError_fill (c : ErrCode) : (s.signalError c).fill = s.fill := by
  unfold signalError; split <;> rfl
@[simp] theorem signalError_bitlen (c : ErrCode) : (s.signalError c).bitlen = s.bitlen := by
  unfold signalError; split <;> rfl
@[simp] theorem signalError_pend (c : ErrCode) : (s.signalError c).pend = s.pend := by
  unfold signalError; split <;> rfl
@[simp] theorem signalError_data (c : ErrCode) : (s.signalError c).data = s.data := by
  unfold signalError; split <;> rfl
@[simp] theorem signalError_phase (c : ErrCode) : (s.signalError c).phase = s.phase := by
  unfold signalError; split <;> rfl
@[simp] theorem signalError_busy (c : ErrCode) : (s.signalError c).busy = s.busy := by
  unfold signalError; split <;> rfl
@[simp] theorem signalError_resetIn (c : ErrCode) : (s.signalError c).resetIn = s.resetIn := by
  unfold signalError; split <;> rfl
@[simp] theorem signalError_port (c : ErrCode) : (s.signalError c).port = s.port := by
  unfold signalError; split <;> rfl
@[simp] theorem signalError_response (c : ErrCode) : (s.signalError c).response = s.response := by
  unfold signalError; split <;> rfl
@[simp] theorem signalError_turns (c : ErrCode) : (s.signalError c).turns = s.turns := by
  unfold signalError; split <;> rfl

@[simp] theorem signalError_err (c : ErrCode) : (s.signalError c).err = true := by
  unfold signalError; split <;> simp_all

@[simp] theorem signalError_errcode (c : ErrCode) :
    (s.signalError c).errcode = if s.err then s.errcode else c := by
  unfold signalError; split <;> simp_all

/-! ### appendByte: FILL counts always; BUF, PEND and the engine by its cases (R107) -/

@[simp] theorem appendByte_acc (b : Byte) : (s.appendByte b).acc = s.acc := by
  unfold appendByte; repeat (first | rfl | split)
@[simp] theorem appendByte_bitlen (b : Byte) : (s.appendByte b).bitlen = s.bitlen := by
  unfold appendByte; repeat (first | rfl | split)
@[simp] theorem appendByte_data (b : Byte) : (s.appendByte b).data = s.data := by
  unfold appendByte; repeat (first | rfl | split)
@[simp] theorem appendByte_phase (b : Byte) : (s.appendByte b).phase = s.phase := by
  unfold appendByte; repeat (first | rfl | split)
@[simp] theorem appendByte_err (b : Byte) : (s.appendByte b).err = s.err := by
  unfold appendByte; repeat (first | rfl | split)
@[simp] theorem appendByte_errcode (b : Byte) : (s.appendByte b).errcode = s.errcode := by
  unfold appendByte; repeat (first | rfl | split)
@[simp] theorem appendByte_resetIn (b : Byte) : (s.appendByte b).resetIn = s.resetIn := by
  unfold appendByte; repeat (first | rfl | split)
@[simp] theorem appendByte_port (b : Byte) : (s.appendByte b).port = s.port := by
  unfold appendByte; repeat (first | rfl | split)
@[simp] theorem appendByte_response (b : Byte) : (s.appendByte b).response = s.response := by
  unfold appendByte; repeat (first | rfl | split)
@[simp] theorem appendByte_turns (b : Byte) : (s.appendByte b).turns = s.turns := by
  unfold appendByte; repeat (first | rfl | split)
@[simp] theorem appendByte_fill (b : Byte) : (s.appendByte b).fill = s.fill + 1 := by
  unfold appendByte; repeat (first | rfl | split)

/-! ### drainByte: only BUF, PEND and the engine (R148) -/

@[simp] theorem drainByte_acc (b : Byte) (rest : List Byte) : (s.drainByte b rest).acc = s.acc := by
  unfold drainByte; repeat (first | rfl | split)
@[simp] theorem drainByte_fill (b : Byte) (rest : List Byte) : (s.drainByte b rest).fill = s.fill := by
  unfold drainByte; repeat (first | rfl | split)
@[simp] theorem drainByte_bitlen (b : Byte) (rest : List Byte) : (s.drainByte b rest).bitlen = s.bitlen := by
  unfold drainByte; repeat (first | rfl | split)
@[simp] theorem drainByte_data (b : Byte) (rest : List Byte) : (s.drainByte b rest).data = s.data := by
  unfold drainByte; repeat (first | rfl | split)
@[simp] theorem drainByte_phase (b : Byte) (rest : List Byte) : (s.drainByte b rest).phase = s.phase := by
  unfold drainByte; repeat (first | rfl | split)
@[simp] theorem drainByte_err (b : Byte) (rest : List Byte) : (s.drainByte b rest).err = s.err := by
  unfold drainByte; repeat (first | rfl | split)
@[simp] theorem drainByte_errcode (b : Byte) (rest : List Byte) : (s.drainByte b rest).errcode = s.errcode := by
  unfold drainByte; repeat (first | rfl | split)
@[simp] theorem drainByte_resetIn (b : Byte) (rest : List Byte) : (s.drainByte b rest).resetIn = s.resetIn := by
  unfold drainByte; repeat (first | rfl | split)
@[simp] theorem drainByte_port (b : Byte) (rest : List Byte) : (s.drainByte b rest).port = s.port := by
  unfold drainByte; repeat (first | rfl | split)
@[simp] theorem drainByte_response (b : Byte) (rest : List Byte) : (s.drainByte b rest).response = s.response := by
  unfold drainByte; repeat (first | rfl | split)
@[simp] theorem drainByte_turns (b : Byte) (rest : List Byte) : (s.drainByte b rest).turns = s.turns := by
  unfold drainByte; repeat (first | rfl | split)
@[simp] theorem drainByte_pend (b : Byte) (rest : List Byte) : (s.drainByte b rest).pend = rest := by
  unfold drainByte; repeat (first | rfl | split)

/-! ### engineTransition: what the engine never touches (R256) -/

@[simp] theorem engineTransition_fill : s.engineTransition.fill = s.fill := by
  unfold engineTransition; repeat (first | rfl | simp | split)
@[simp] theorem engineTransition_bitlen : s.engineTransition.bitlen = s.bitlen := by
  unfold engineTransition; repeat (first | rfl | simp | split)
@[simp] theorem engineTransition_data : s.engineTransition.data = s.data := by
  unfold engineTransition; repeat (first | rfl | simp | split)
@[simp] theorem engineTransition_phase : s.engineTransition.phase = s.phase := by
  unfold engineTransition; repeat (first | rfl | simp | split)
@[simp] theorem engineTransition_err : s.engineTransition.err = s.err := by
  unfold engineTransition; repeat (first | rfl | simp | split)
@[simp] theorem engineTransition_errcode : s.engineTransition.errcode = s.errcode := by
  unfold engineTransition; repeat (first | rfl | simp | split)
@[simp] theorem engineTransition_resetIn : s.engineTransition.resetIn = s.resetIn := by
  unfold engineTransition; repeat (first | rfl | simp | split)
@[simp] theorem engineTransition_port : s.engineTransition.port = s.port := by
  unfold engineTransition; repeat (first | rfl | simp | split)
@[simp] theorem engineTransition_response : s.engineTransition.response = s.response := by
  unfold engineTransition; repeat (first | rfl | simp | split)
@[simp] theorem engineTransition_turns : s.engineTransition.turns = s.turns := by
  unfold engineTransition; repeat (first | rfl | simp | split)

/-! ### nextTurn: only the schedule -/

@[simp] theorem nextTurn_acc : s.nextTurn.2.acc = s.acc := by
  unfold nextTurn; split <;> rfl
@[simp] theorem nextTurn_w : s.nextTurn.2.w = s.w := by
  unfold nextTurn; split <;> rfl
@[simp] theorem nextTurn_step : s.nextTurn.2.step = s.step := by
  unfold nextTurn; split <;> rfl
@[simp] theorem nextTurn_eng : s.nextTurn.2.eng = s.eng := by
  unfold nextTurn; split <;> rfl
@[simp] theorem nextTurn_buf : s.nextTurn.2.buf = s.buf := by
  unfold nextTurn; split <;> rfl
@[simp] theorem nextTurn_fill : s.nextTurn.2.fill = s.fill := by
  unfold nextTurn; split <;> rfl
@[simp] theorem nextTurn_bitlen : s.nextTurn.2.bitlen = s.bitlen := by
  unfold nextTurn; split <;> rfl
@[simp] theorem nextTurn_pend : s.nextTurn.2.pend = s.pend := by
  unfold nextTurn; split <;> rfl
@[simp] theorem nextTurn_data : s.nextTurn.2.data = s.data := by
  unfold nextTurn; split <;> rfl
@[simp] theorem nextTurn_phase : s.nextTurn.2.phase = s.phase := by
  unfold nextTurn; split <;> rfl
@[simp] theorem nextTurn_err : s.nextTurn.2.err = s.err := by
  unfold nextTurn; split <;> rfl
@[simp] theorem nextTurn_errcode : s.nextTurn.2.errcode = s.errcode := by
  unfold nextTurn; split <;> rfl
@[simp] theorem nextTurn_busy : s.nextTurn.2.busy = s.busy := by
  unfold nextTurn; split <;> rfl
@[simp] theorem nextTurn_resetIn : s.nextTurn.2.resetIn = s.resetIn := by
  unfold nextTurn; split <;> rfl
@[simp] theorem nextTurn_port : s.nextTurn.2.port = s.port := by
  unfold nextTurn; split <;> rfl
@[simp] theorem nextTurn_response : s.nextTurn.2.response = s.response := by
  unfold nextTurn; split <;> rfl

end State

/-! ### initEffect (R171) -/

variable (s : State)

@[simp] theorem initEffect_acc : (initEffect s).acc = initialState := rfl
@[simp] theorem initEffect_w : (initEffect s).w = s.w := rfl
@[simp] theorem initEffect_step : (initEffect s).step = s.step := rfl
@[simp] theorem initEffect_eng : (initEffect s).eng = s.eng := rfl
@[simp] theorem initEffect_buf : (initEffect s).buf = s.buf := rfl
@[simp] theorem initEffect_fill : (initEffect s).fill = 0 := rfl
@[simp] theorem initEffect_bitlen : (initEffect s).bitlen = 0 := rfl
@[simp] theorem initEffect_pend : (initEffect s).pend = s.pend := rfl
@[simp] theorem initEffect_data : (initEffect s).data = s.data := rfl
@[simp] theorem initEffect_phase : (initEffect s).phase = .absorb := rfl
@[simp] theorem initEffect_err : (initEffect s).err = s.err := rfl
@[simp] theorem initEffect_errcode : (initEffect s).errcode = s.errcode := rfl
@[simp] theorem initEffect_busy : (initEffect s).busy = s.busy := rfl
@[simp] theorem initEffect_resetIn : (initEffect s).resetIn = s.resetIn := rfl
@[simp] theorem initEffect_port : (initEffect s).port = s.port := rfl
@[simp] theorem initEffect_response : (initEffect s).response = s.response := rfl
@[simp] theorem initEffect_turns : (initEffect s).turns = s.turns := rfl

end Sys2Proof.Machine
end

