-- ==== Sys2Proof/Laws/Ops.lean ====
section
/-! SUPPORT. For each shared operation, once, everything it can do: the hold, AppendByte, the engine's transition, the
choice of who moves, a turn, and exec of each kind of instruction. -/

namespace Sys2Proof.Machine

variable {s t : State}

/-! ### The hold (R255) -/

theorem whenReady_of_ready (f : State → State) (h : s.Ready) : whenReady s f = .next (f s) := by
  simp [whenReady, h.1, h.2]

theorem whenReady_of_busy (f : State → State) (h : s.busy = true) : whenReady s f = .next s := by
  simp [whenReady, h]

theorem whenReady_of_resetIn (f : State → State) (h : s.resetIn = true) : whenReady s f = .next s := by
  simp [whenReady, h]

theorem whenReleased_of_released (f : State → State) (h : s.resetIn = false) : whenReleased s f = .next (f s) := by
  simp [whenReleased, h]

/-- An access that BUSY holds: it is performed when the block is ready, and else nothing changes. -/
theorem whenReady_next_iff (f : State → State) :
    whenReady s f = .next t ↔ (s.Ready ∧ t = f s) ∨ (¬ s.Ready ∧ t = s) := by
  unfold whenReady State.Ready
  cases s.resetIn <;> cases s.busy <;> simp [eq_comm]

/-- An access that BUSY does not hold. -/
theorem whenReleased_next_iff (f : State → State) :
    whenReleased s f = .next t ↔ (s.resetIn = false ∧ t = f s) ∨ (s.resetIn = true ∧ t = s) := by
  unfold whenReleased
  cases s.resetIn <;> simp [eq_comm]

/-! ### exec by kinds of instruction -/

/-- A command is one held write whose effect is that of the command (R77, R190). -/
theorem exec_command (c : Command) (s : State) :
    exec c.toInstr s = whenReady s fun s => (commandEffect c s).complete .written := by
  cases c <;> rfl

/-- A write to CMD runs the command its word decodes to (R190). -/
theorem exec_wrCmd (w : Word) (s : State) : exec (.wrCmd w) s = exec (decodeCommand w).toInstr s := by
  rw [exec_command]; rfl

theorem exec_wrData (v : Word) (s : State) :
    exec (.wrData v) s = whenReady s fun s => { s with data := v }.complete .written := rfl

theorem exec_wrIgnored (off : Offset) (v : Word) (s : State) :
    exec (.wrIgnored off v) s = whenReady s fun s => s.complete .written := rfl

theorem exec_rdCmd (s : State) : exec .rdCmd s = whenReady s fun s => s.complete (.value 0) := rfl

theorem exec_rdStatus (s : State) : exec .rdStatus s = whenReleased s fun s => s.complete (.value s.statusWord) := rfl

theorem exec_rdData (s : State) : exec .rdData s = whenReady s fun s => s.complete (.value s.data) := rfl

theorem exec_rdLenLo (s : State) : exec .rdLenLo s = whenReady s fun s => s.complete (.value (lenLo s.bitlen)) := rfl

theorem exec_rdLenHi (s : State) : exec .rdLenHi s = whenReady s fun s => s.complete (.value (lenHi s.bitlen)) := rfl

theorem exec_rdAcc (n : BitVec 2) (s : State) :
    exec (.rdAcc n) s = whenReady s fun s => s.complete (accResponse s n) := rfl

theorem exec_rdReserved (off : Offset) (s : State) :
    exec (.rdReserved off) s = whenReady s fun s => s.complete (.value 0) := rfl

theorem exec_busError (dir : Dir) (off : Offset) (width : Width) (v : Word) (s : State) :
    exec (.busError dir off width v) s = whenReleased s fun s => s.complete (.fault (.busError off)) := rfl

/-- An instruction that does nothing but answer, and only when the block is ready. -/
theorem exec_answers {i : Instr} (h : (∃ off v, i = .wrIgnored off v) ∨ i = .rdCmd ∨ i = .rdData ∨ i = .rdLenLo ∨
    i = .rdLenHi ∨ (∃ n, i = .rdAcc n) ∨ (∃ off, i = .rdReserved off)) :
    ∃ r : State → Response, ∀ s, exec i s = whenReady s fun s => s.complete (r s) := by
  rcases h with ⟨off, v, rfl⟩ | rfl | rfl | rfl | rfl | ⟨n, rfl⟩ | ⟨off, rfl⟩
  · exact ⟨fun _ => .written, fun _ => rfl⟩
  · exact ⟨fun _ => .value 0, fun _ => rfl⟩
  · exact ⟨fun s => .value s.data, fun _ => rfl⟩
  · exact ⟨fun s => .value (lenLo s.bitlen), fun _ => rfl⟩
  · exact ⟨fun s => .value (lenHi s.bitlen), fun _ => rfl⟩
  · exact ⟨fun s => accResponse s n, fun _ => rfl⟩
  · exact ⟨fun _ => .value 0, fun _ => rfl⟩

/-- An instruction that does nothing but answer, whether or not BUSY = 1 (R255). -/
theorem exec_answers_at_once {i : Instr} (h : i = .rdStatus ∨ ∃ dir off width v, i = .busError dir off width v) :
    ∃ r : State → Response, ∀ s, exec i s = whenReleased s fun s => s.complete (r s) := by
  rcases h with rfl | ⟨dir, off, width, v, rfl⟩
  · exact ⟨fun s => .value s.statusWord, fun _ => rfl⟩
  · exact ⟨fun _ => .fault (.busError off), fun _ => rfl⟩

/-- Every instruction is a command, a write to CMD, a write to DATA, or one that only answers. -/
theorem instr_kinds (i : Instr) :
    (∃ c : Command, i = c.toInstr) ∨ (∃ w, i = .wrCmd w) ∨ (∃ v, i = .wrData v) ∨
    ((∃ off v, i = .wrIgnored off v) ∨ i = .rdCmd ∨ i = .rdData ∨ i = .rdLenLo ∨
      i = .rdLenHi ∨ (∃ n, i = .rdAcc n) ∨ (∃ off, i = .rdReserved off)) ∨
    (i = .rdStatus ∨ ∃ dir off width v, i = .busError dir off width v) := by
  cases i with
  | nop => exact .inl ⟨.nop, rfl⟩
  | init => exact .inl ⟨.init, rfl⟩
  | absorb cnt => exact .inl ⟨.absorb cnt, rfl⟩
  | final => exact .inl ⟨.final, rfl⟩
  | clrerr => exact .inl ⟨.clrerr, rfl⟩
  | illegal w => exact .inl ⟨.illegal w, rfl⟩
  | wrCmd | wrData | wrIgnored | rdCmd | rdStatus | rdData | rdLenLo | rdLenHi | rdAcc | rdReserved | busError => simp

/-- What an instruction can do: it is held; it performs a command; it loads DATA; or it only answers. -/
theorem exec_next_cases {i : Instr} (h : exec i s = .next t) :
    (t = s ∧ (s.resetIn = true ∨ s.busy = true)) ∨
    (s.Ready ∧ ∃ c : Command, (i = c.toInstr ∨ ∃ w, i = .wrCmd w ∧ decodeCommand w = c) ∧
      t = (commandEffect c s).complete .written) ∨
    (s.Ready ∧ ∃ v, i = .wrData v ∧ t = { s with data := v }.complete .written) ∨
    (s.resetIn = false ∧ (∀ c : Command, i ≠ c.toInstr) ∧ (∀ w, i ≠ .wrCmd w) ∧ (∀ v, i ≠ .wrData v) ∧
      ∃ r, t = s.complete r) := by
  have held : ¬ s.Ready ∧ t = s → t = s ∧ (s.resetIn = true ∨ s.busy = true) := by
    rintro ⟨hr, rfl⟩
    refine ⟨rfl, ?_⟩
    unfold State.Ready at hr
    revert hr
    cases t.resetIn <;> cases t.busy <;> simp
  rcases instr_kinds i with ⟨c, rfl⟩ | ⟨w, rfl⟩ | ⟨v, rfl⟩ | hi | hi
  · rw [exec_command, whenReady_next_iff] at h
    exact h.symm.imp held fun h => .inl ⟨h.1, c, .inl rfl, h.2⟩
  · rw [exec_wrCmd, exec_command, whenReady_next_iff] at h
    exact h.symm.imp held fun h => .inl ⟨h.1, _, .inr ⟨w, rfl, rfl⟩, h.2⟩
  · rw [exec_wrData, whenReady_next_iff] at h
    exact h.symm.imp held fun h => .inr (.inl ⟨h.1, v, rfl, h.2⟩)
  · obtain ⟨r, hr⟩ := exec_answers hi
    rw [hr, whenReady_next_iff] at h
    refine h.symm.imp held fun h => .inr (.inr ⟨h.1.1, ?_, ?_, ?_, _, h.2⟩)
    · rintro (_ | _ | _ | _ | _ | _) rfl <;> simp [Command.toInstr] at hi
    · rintro w rfl; simp at hi
    · rintro v rfl; simp at hi
  · obtain ⟨r, hr⟩ := exec_answers_at_once hi
    rw [hr, whenReleased_next_iff] at h
    refine h.symm.imp (fun h => ⟨h.2, .inl h.1⟩) fun h => .inr (.inr ⟨h.1, ?_, ?_, ?_, _, h.2⟩)
    · rintro (_ | _ | _ | _ | _ | _) rfl <;> simp [Command.toInstr] at hi
    · rintro w rfl; simp at hi
    · rintro v rfl; simp at hi

/-- Every instruction answers a next state. -/
theorem exec_next (i : Instr) (s : State) : ∃ t, exec i s = .next t := by
  have ready : ∀ f : State → State, ∃ t, whenReady s f = .next t := fun f => by
    unfold whenReady; split <;> exact ⟨_, rfl⟩
  have released : ∀ f : State → State, ∃ t, whenReleased s f = .next t := fun f => by
    unfold whenReleased; split <;> exact ⟨_, rfl⟩
  rcases instr_kinds i with ⟨c, rfl⟩ | ⟨w, rfl⟩ | ⟨v, rfl⟩ | hi | hi
  · rw [exec_command]; exact ready _
  · rw [exec_wrCmd, exec_command]; exact ready _
  · rw [exec_wrData]; exact ready _
  · obtain ⟨r, hr⟩ := exec_answers hi; rw [hr]; exact ready _
  · obtain ⟨r, hr⟩ := exec_answers_at_once hi; rw [hr]; exact released _

/-! ### AppendByte (R107) -/

theorem appendByte_of_busy (b : Byte) (h : s.busy = true) :
    s.appendByte b = { s with pend := s.pend ++ [b], fill := s.fill + 1 } := by
  simp [State.appendByte, h]

theorem appendByte_of_room (b : Byte) (h : s.busy = false) (hf : s.fill ≠ 63) :
    s.appendByte b = { s with buf := setByte s.buf s.fill b, fill := s.fill + 1 } := by
  unfold State.appendByte
  simp only [h, Bool.false_eq_true, if_false, if_neg hf]

theorem appendByte_of_last (b : Byte) (h : s.busy = false) (hf : s.fill = 63) :
    s.appendByte b = { s with buf := setByte s.buf s.fill b, fill := s.fill + 1 }.startBlock := by
  simp [State.appendByte, h, hf]

@[simp] theorem getByte_setByte_self (buf : Vector Byte 64) (j : BitVec 6) (b : Byte) :
    getByte (setByte buf j b) j = b := by
  simp [getByte, setByte]

theorem getByte_setByte_ne (buf : Vector Byte 64) {j k : BitVec 6} (b : Byte) (h : j ≠ k) :
    getByte (setByte buf j b) k = getByte buf k := by
  have : j.toNat ≠ k.toNat := fun e => h (BitVec.eq_of_toNat_eq e)
  simp [getByte, setByte, this]

/-! ### The engine (R148) -/

theorem engineTransition_of_run (h : s.eng = .run) : s.engineTransition = s.runStep := by
  simp [State.engineTransition, h]

theorem engineTransition_of_ff (h : s.eng = .ff) : s.engineTransition = s.finishBlock := by
  simp [State.engineTransition, h]

theorem engineTransition_of_pend {b : Byte} {rest : List Byte} (h : s.eng = .idle) (hp : s.pend = b :: rest) :
    s.engineTransition = s.drainByte b rest := by
  simp [State.engineTransition, h, hp]

theorem engineTransition_of_rest (h : s.engineActive = false) : s.engineTransition = s := by
  unfold State.engineActive at h
  unfold State.engineTransition
  cases he : s.eng <;> cases hp : s.pend <;> simp_all

theorem engineActive_eq_false : s.engineActive = false ↔ s.eng = .idle ∧ s.pend = [] := by
  unfold State.engineActive
  cases s.eng <;> cases s.pend <;> simp

theorem engineRun_add (m n : Nat) (s : State) : s.engineRun (m + n) = (s.engineRun m).engineRun n := by
  induction m generalizing s with
  | zero => simp [State.engineRun]
  | succ m ih => rw [Nat.succ_add]; exact ih _

theorem engineRun_of_rest (n : Nat) (h : s.engineActive = false) : s.engineRun n = s := by
  induction n with
  | zero => rfl
  | succ n ih => rw [State.engineRun, engineTransition_of_rest h, ih]

/-! ### Turns and steps -/

theorem nextTurn_of_cons {x : Config.Turn} {ts : List Config.Turn} (h : s.turns = x :: ts) :
    s.nextTurn = (x, { s with turns := ts }) := by
  simp [State.nextTurn, h]

theorem nextTurn_of_active (h : s.turns = []) (ha : s.engineActive = true) : s.nextTurn = (.engine, s) := by
  simp [State.nextTurn, h, ha]

theorem nextTurn_of_rest (h : s.turns = []) (ha : s.engineActive = false) : s.nextTurn = (.host, s) := by
  simp [State.nextTurn, h, ha]

/-- What a turn can do: the host's oldest access is executed, or there is none; the engine moves; the reset input
changes. -/
theorem runTurn_cases {x : Config.Turn} (h : runTurn x s = .next t) :
    (x = .host ∧ ∃ i, s.fetch = some i ∧ exec i s = .next t) ∨
    (x = .host ∧ s.fetch = none ∧ t = s) ∨
    (x = .engine ∧ t = s.engineTransition) ∨
    (x = .resetOn ∧ t = s.assertReset) ∨
    (x = .resetOff ∧ t = s.releaseReset) := by
  cases x with
  | host =>
    unfold runTurn at h
    cases hf : s.fetch with
    | none => simp only [hf] at h; cases h; simp
    | some i => simp only [hf] at h; exact .inl ⟨rfl, i, rfl, h⟩
  | engine => cases h; simp
  | resetOn => cases h; simp
  | resetOff => cases h; simp

/-- A step is the turn of the agent whose turn it is. -/
theorem step_cases (h : step s = .next t) :
    (s.nextTurn.1 = .host ∧ ∃ i, s.nextTurn.2.fetch = some i ∧ exec i s.nextTurn.2 = .next t) ∨
    (s.nextTurn.1 = .host ∧ s.nextTurn.2.fetch = none ∧ t = s.nextTurn.2) ∨
    (s.nextTurn.1 = .engine ∧ t = s.nextTurn.2.engineTransition) ∨
    (s.nextTurn.1 = .resetOn ∧ t = s.nextTurn.2.assertReset) ∨
    (s.nextTurn.1 = .resetOff ∧ t = s.nextTurn.2.releaseReset) :=
  runTurn_cases h

/-- A turn of any agent answers a next state. -/
theorem runTurn_next (x : Config.Turn) (s : State) : ∃ t, runTurn x s = .next t := by
  cases x with
  | host =>
    unfold runTurn
    cases s.fetch with
    | none => exact ⟨s, rfl⟩
    | some i => exact exec_next i s
  | engine | resetOn | resetOff => exact ⟨_, rfl⟩

theorem fetch_of_cons {op : HostOp} {rest : List HostOp} (h : s.port = op :: rest) : s.fetch = some (decode op) := by
  simp [State.fetch, h]

/-! ### Runs -/

theorem runSteps_succ_iff (n : Nat) (s t : State) :
    runSteps (n + 1) s = .next t ↔ ∃ u, step s = .next u ∧ runSteps n u = .next t := by
  rw [runSteps]
  cases step s <;> simp

theorem runSteps_add {m n : Nat} {s t u : State} (h₁ : runSteps m s = .next t)
    (h₂ : runSteps n t = .next u) : runSteps (m + n) s = .next u := by
  induction m generalizing s with
  | zero => cases h₁; simpa using h₂
  | succ m ih =>
    obtain ⟨v, hv, hr⟩ := (runSteps_succ_iff m s t).mp h₁
    rw [Nat.succ_add]
    exact (runSteps_succ_iff _ _ _).mpr ⟨v, hv, ih hr⟩

end Sys2Proof.Machine
end

