-- ==== Sys2Proof/Laws/Padder.lean ====
section
/-! SUPPORT. What a whole sequence of AppendByte calls does, in one equation (40_padder.md rule R107), and ABSORB and FINAL
as such sequences (R108, R109). -/

namespace Sys2Proof.Machine

/-- The bytes written at consecutive positions of the buffer from `f` on. -/
def writeBytes (buf : Vector Byte 64) (f : BitVec 6) : List Byte → Vector Byte 64
  | [] => buf
  | b :: bs => writeBytes (setByte buf f b) (f + 1) bs

theorem fill_succ_toNat (f : BitVec 6) (h : f ≠ 63) : (f + 1).toNat = f.toNat + 1 := by
  have h63 : f.toNat ≠ 63 := fun e => h (BitVec.eq_of_toNat_eq e)
  have := f.isLt
  rw [BitVec.toNat_add]
  change (f.toNat + 1) % 64 = _
  omega

theorem fill_last : (63 : BitVec 6) + 1 = 0 := by decide

/-- Reading the buffer after consecutive writes that do not wrap. -/
theorem getByte_writeBytes (bs : List Byte) : ∀ (buf : Vector Byte 64) (f j : BitVec 6), f.toNat + bs.length ≤ 64 →
    getByte (writeBytes buf f bs) j =
      if h : f.toNat ≤ j.toNat ∧ j.toNat < f.toNat + bs.length then bs[j.toNat - f.toNat] else getByte buf j := by
  induction bs with
  | nil =>
    intro buf f j _
    rw [dif_neg (by simp)]
    rfl
  | cons b bs ih =>
    intro buf f j hlen
    simp only [List.length_cons] at hlen
    unfold writeBytes
    by_cases hf : f = 63
    · subst hf
      have : bs = [] := by
        cases bs with
        | nil => rfl
        | cons => simp at hlen; exact absurd hlen (by omega)
      subst this
      by_cases hj : j = 63
      · subst hj; simp [writeBytes]
      · have : j.toNat ≠ 63 := fun e => hj (BitVec.eq_of_toNat_eq e)
        have hlt := j.isLt
        rw [dif_neg (by change ¬(63 ≤ j.toNat ∧ j.toNat < 63 + 1); omega)]
        exact getByte_setByte_ne _ _ (Ne.symm hj)
    · have hs := fill_succ_toNat f hf
      rw [ih _ _ _ (by rw [hs]; omega)]
      by_cases hj : f = j
      · subst hj
        rw [dif_neg (by rw [hs]; omega), getByte_setByte_self, dif_pos (by simp)]
        simp
      · have hjn : f.toNat ≠ j.toNat := fun e => hj (BitVec.eq_of_toNat_eq e)
        rw [getByte_setByte_ne _ _ hj]
        by_cases hin : f.toNat ≤ j.toNat ∧ j.toNat < f.toNat + (bs.length + 1)
        · rw [dif_pos (by rw [hs]; omega), dif_pos (by simpa using hin)]
          have : j.toNat - f.toNat = (j.toNat - (f + 1).toNat) + 1 := by rw [hs]; omega
          simp only [this, List.getElem_cons_succ]
        · rw [dif_neg (by rw [hs]; omega), dif_neg (by simpa using hin)]

theorem writeBytes_append (bs cs : List Byte) : ∀ (buf : Vector Byte 64) (f : BitVec 6),
    writeBytes buf f (bs ++ cs) = writeBytes (writeBytes buf f bs) (f + BitVec.ofNat 6 bs.length) cs := by
  induction bs with
  | nil => intro buf f; simp [writeBytes]
  | cons b bs ih =>
    intro buf f
    have : f + 1 + BitVec.ofNat 6 bs.length = f + BitVec.ofNat 6 (bs.length + 1) := by
      rw [BitVec.ofNat_add, BitVec.add_assoc, BitVec.add_comm (BitVec.ofNat 6 bs.length)]; rfl
    simp only [List.cons_append, writeBytes, List.length_cons, ih, this]

/-! ### AppendByte of a list -/

theorem appendBytes_nil (s : State) : s.appendBytes [] = s := rfl

theorem appendBytes_cons (s : State) (b : Byte) (bs : List Byte) :
    s.appendBytes (b :: bs) = (s.appendByte b).appendBytes bs := rfl

theorem appendBytes_append (s : State) (bs cs : List Byte) :
    s.appendBytes (bs ++ cs) = (s.appendBytes bs).appendBytes cs := by
  simp [State.appendBytes, List.foldl_append]

theorem ofNat_length_cons (f : BitVec 6) (n : Nat) : f + 1 + BitVec.ofNat 6 n = f + BitVec.ofNat 6 (n + 1) := by
  rw [BitVec.ofNat_add, BitVec.add_assoc, BitVec.add_comm (BitVec.ofNat 6 n)]; rfl

/-- While the engine runs, every byte waits. -/
theorem appendBytes_of_busy (bs : List Byte) : ∀ s : State, s.busy = true →
    s.appendBytes bs = { s with pend := s.pend ++ bs, fill := s.fill + BitVec.ofNat 6 bs.length } := by
  induction bs with
  | nil => intro s _; simp [appendBytes_nil]
  | cons b bs ih =>
    intro s h
    rw [appendBytes_cons, appendByte_of_busy b h, ih _ (by simpa using h)]
    simp only [List.append_assoc, List.singleton_append, List.length_cons, ofNat_length_cons]

/-- Bytes that do not complete the block go to the buffer. -/
theorem appendBytes_of_room (bs : List Byte) : ∀ s : State, s.busy = false → s.fill.toNat + bs.length < 64 →
    s.appendBytes bs = { s with buf := writeBytes s.buf s.fill bs, fill := s.fill + BitVec.ofNat 6 bs.length } := by
  induction bs with
  | nil => intro s _ _; simp [appendBytes_nil, writeBytes]
  | cons b bs ih =>
    intro s h hlen
    simp only [List.length_cons] at hlen
    have hf : s.fill ≠ 63 := fun e => by rw [e] at hlen; change 63 + _ < 64 at hlen; omega
    rw [appendBytes_cons, appendByte_of_room b h hf, ih _ (by simpa using h) (by
      change (s.fill + 1).toNat + _ < 64
      rw [fill_succ_toNat _ hf]; omega)]
    simp only [List.length_cons, ofNat_length_cons, writeBytes]

/-- Bytes that complete the block: it goes to the engine and the bytes after its 64th wait. -/
theorem appendBytes_of_full (bs : List Byte) : ∀ s : State, s.busy = false → 64 ≤ s.fill.toNat + bs.length →
    s.appendBytes bs = { s with
      buf := writeBytes s.buf s.fill (bs.take (64 - s.fill.toNat)), fill := s.fill + BitVec.ofNat 6 bs.length,
      pend := s.pend ++ bs.drop (64 - s.fill.toNat), w := s.acc, step := 0, eng := .run, busy := true } := by
  induction bs with
  | nil => intro s _ hlen; have := s.fill.isLt; simp at hlen; omega
  | cons b bs ih =>
    intro s h hlen
    simp only [List.length_cons] at hlen
    rw [appendBytes_cons]
    by_cases hf : s.fill = 63
    · have h1 : 64 - s.fill.toNat = 1 := by rw [hf]; rfl
      rw [appendByte_of_last b h hf, appendBytes_of_busy _ _ rfl, h1]
      simp only [State.startBlock, writeBytes, List.take_succ_cons, List.take_zero, List.drop_succ_cons, List.drop_zero,
        List.length_cons, ofNat_length_cons]
    · have hs := fill_succ_toNat _ hf
      have hlt := s.fill.isLt
      have hne : s.fill.toNat ≠ 63 := fun e => hf (BitVec.eq_of_toNat_eq e)
      obtain ⟨k, hk⟩ : ∃ k, 64 - s.fill.toNat = k + 1 := ⟨63 - s.fill.toNat, by omega⟩
      have hk' : 64 - (s.fill + 1).toNat = k := by rw [hs]; omega
      rw [appendByte_of_room b h hf, ih _ (by simpa using h) (by
        change 64 ≤ (s.fill + 1).toNat + _
        rw [hs]; omega)]
      simp only [hk, hk', List.take_succ_cons, List.drop_succ_cons, writeBytes, ofNat_length_cons, List.length_cons]

/-! ### ABSORB and FINAL as sequences of bytes -/

@[simp] theorem absorbBytes_length (data : Word) (cnt : BitVec 2) :
    (absorbBytes data cnt).length = cnt.toNat + 1 := by
  have := cnt.isLt
  simp [absorbBytes, byteCount]
  omega

@[simp] theorem lengthBytes_length (bitlen : BitVec 64) : (lengthBytes bitlen).length = 8 := rfl

theorem appendByte_with_bitlen (s : State) (x : BitVec 64) (b : Byte) :
    { s with bitlen := x }.appendByte b = { s.appendByte b with bitlen := x } := by
  by_cases h : s.busy = true
  · rw [appendByte_of_busy b h, appendByte_of_busy b (by exact h)]
  · have h' : s.busy = false := by simpa using h
    by_cases hf : s.fill = 63
    · rw [appendByte_of_last b h' hf, appendByte_of_last b (by exact h') (by exact hf)]
      rfl
    · rw [appendByte_of_room b h' hf, appendByte_of_room b (by exact h') (by exact hf)]

/-- The bytes of an ABSORB: appended, and counted 8 bits each. -/
theorem foldl_absorbByte (bs : List Byte) : ∀ s : State,
    bs.foldl State.absorbByte s = { s.appendBytes bs with bitlen := s.bitlen + 8 * BitVec.ofNat 64 bs.length } := by
  induction bs with
  | nil => intro s; simp [appendBytes_nil]
  | cons b bs ih =>
    intro s
    have hfold : ∀ (cs : List Byte) (u : State) (x : BitVec 64),
        { u with bitlen := x }.appendBytes cs = { u.appendBytes cs with bitlen := x } := by
      intro cs
      induction cs with
      | nil => intro u x; rfl
      | cons c cs ihc => intro u x; rw [appendBytes_cons, appendByte_with_bitlen, ihc, appendBytes_cons]
    rw [List.foldl_cons, ih, State.absorbByte, hfold, appendBytes_cons]
    have : s.bitlen + 8 + 8 * BitVec.ofNat 64 bs.length = s.bitlen + 8 * BitVec.ofNat 64 (bs.length + 1) := by
      apply BitVec.eq_of_toNat_eq
      simp [BitVec.toNat_add, BitVec.toNat_mul]
      omega
    simp only [State.appendByte_bitlen, List.length_cons, this]

/-- The zero bytes of FINAL: from FILL up to 56, modulo 64. -/
theorem padZeros_eq (fuel : Nat) : ∀ s : State, (56 - s.fill).toNat ≤ fuel →
    State.padZeros fuel s = s.appendBytes (List.replicate (56 - s.fill).toNat 0x00) := by
  induction fuel with
  | zero =>
    intro s h
    have : (56 - s.fill).toNat = 0 := by omega
    rw [this]; rfl
  | succ n ih =>
    intro s h
    rw [State.padZeros]
    by_cases hf : s.fill = 56
    · rw [if_pos hf, hf]; rfl
    · have hne : (56 - s.fill).toNat ≠ 0 := by
        intro e
        apply hf
        have : (56 : BitVec 6) - s.fill = 0 := BitVec.eq_of_toNat_eq e
        bv_omega
      have hsub : (56 - (s.fill + 1)).toNat = (56 - s.fill).toNat - 1 := by bv_omega
      obtain ⟨k, hk⟩ : ∃ k, (56 - s.fill).toNat = k + 1 := ⟨(56 - s.fill).toNat - 1, by omega⟩
      rw [if_neg hf, ih _ (by rw [State.appendByte_fill, hsub]; omega), State.appendByte_fill, hsub, hk]
      simp [List.replicate_succ, appendBytes_cons]

/-- The bytes FINAL appends (R102 to R104): the marker, the zero bytes, the length field. -/
def finalBytes (fill : BitVec 6) (bitlen : BitVec 64) : List Byte :=
  0x80 :: List.replicate (55 - fill).toNat 0x00 ++ lengthBytes bitlen

theorem finalEffect_eq (s : State) (h : s.phase = .absorb) :
    finalEffect s = { s.appendBytes (finalBytes s.fill s.bitlen) with phase := .done } := by
  have hz : (56 - (s.appendByte 0x80).fill).toNat = (55 - s.fill).toNat := by
    rw [State.appendByte_fill]; bv_omega
  rw [finalEffect, if_pos h, padZeros_eq 64 _ (by rw [hz]; have := (55 - s.fill).isLt; omega), hz, finalBytes,
    List.cons_append, appendBytes_cons, appendBytes_append]

theorem finalBytes_length (fill : BitVec 6) (bitlen : BitVec 64) :
    (finalBytes fill bitlen).length = (if fill.toNat ≤ 55 then 64 - fill.toNat else 128 - fill.toNat) := by
  have := fill.isLt
  have h : (55 - fill).toNat = if fill.toNat ≤ 55 then 55 - fill.toNat else 119 - fill.toNat := by
    split <;> bv_omega
  rw [finalBytes, List.length_append, List.length_cons, List.length_replicate, lengthBytes_length, h]
  split <;> omega

theorem absorbEffect_eq (cnt : BitVec 2) (s : State) (h : s.phase = .absorb) :
    absorbEffect cnt s = { s.appendBytes (absorbBytes s.data cnt) with
      bitlen := s.bitlen + 8 * BitVec.ofNat 64 (cnt.toNat + 1) } := by
  rw [absorbEffect, if_pos h, foldl_absorbByte, absorbBytes_length]

/-! ### What a sequence of bytes, and a command, leave alone -/

/-- A sequence of bytes changes only BUF, FILL, PEND and the engine's registers (R107). -/
theorem appendBytes_frame (bs : List Byte) : ∀ s : State,
    (s.appendBytes bs).acc = s.acc ∧ (s.appendBytes bs).bitlen = s.bitlen ∧ (s.appendBytes bs).data = s.data ∧
    (s.appendBytes bs).phase = s.phase ∧ (s.appendBytes bs).err = s.err ∧ (s.appendBytes bs).errcode = s.errcode ∧
    (s.appendBytes bs).resetIn = s.resetIn ∧ (s.appendBytes bs).port = s.port ∧
    (s.appendBytes bs).response = s.response ∧ (s.appendBytes bs).turns = s.turns := by
  induction bs with
  | nil => intro s; simp [appendBytes_nil]
  | cons b bs ih => intro s; rw [appendBytes_cons]; simpa using ih (s.appendByte b)

/-- No command changes DATA, the reset input, the port, the response or the schedule. -/
theorem commandEffect_frame (c : Command) (s : State) :
    (commandEffect c s).data = s.data ∧ (commandEffect c s).resetIn = s.resetIn ∧ (commandEffect c s).port = s.port ∧
    (commandEffect c s).response = s.response ∧ (commandEffect c s).turns = s.turns := by
  cases c with
  | nop => simp [commandEffect, nopEffect]
  | init => simp [commandEffect]
  | clrerr => simp [commandEffect, clrerrEffect]
  | illegal w => simp [commandEffect, illegalEffect]
  | absorb cnt =>
    by_cases h : s.phase = .absorb
    · simp [commandEffect, absorbEffect_eq cnt s h, appendBytes_frame]
    · simp [commandEffect, absorbEffect, h]
  | final =>
    by_cases h : s.phase = .absorb
    · simp [commandEffect, finalEffect_eq s h, appendBytes_frame]
    · simp [commandEffect, finalEffect, h]

end Sys2Proof.Machine
end

