-- ==== Sys2Proof/Laws/Invariant.lean ====
section
/-! SUPPORT. The invariant of Safety.lean under each shared operation. -/

namespace Sys2Proof.Machine

variable {s : State}

theorem State.Inv.at_rest (hi : s.Inv) (hb : s.busy = false) : s.eng = .idle ∧ s.pend = [] ∧ s.step = 0 := by
  have h := engineActive_eq_false.mp (hi.busy_iff ▸ hb)
  exact ⟨h.1, h.2, hi.step_zero (by rw [h.1]; simp)⟩

/-- An answer changes nothing the invariant speaks of. -/
theorem State.Inv.complete (hi : s.Inv) (r : Response) : (s.complete r).Inv :=
  ⟨hi.busy_iff, hi.step_zero, hi.err_iff, hi.idle_clear, hi.absorb_fill, hi.done_fill, hi.bitlen_bytes, hi.absorb_pend,
    hi.pend_length, hi.reset_idle⟩

theorem State.Inv.setData (hi : s.Inv) (v : Word) : State.Inv { s with data := v } :=
  ⟨hi.busy_iff, hi.step_zero, hi.err_iff, hi.idle_clear, hi.absorb_fill, hi.done_fill, hi.bitlen_bytes, hi.absorb_pend,
    hi.pend_length, hi.reset_idle⟩

theorem State.Inv.setSchedule (hi : s.Inv) (port : List HostOp) (ts : List Config.Turn) :
    State.Inv { s with port := port, turns := ts } :=
  ⟨hi.busy_iff, hi.step_zero, hi.err_iff, hi.idle_clear, hi.absorb_fill, hi.done_fill, hi.bitlen_bytes, hi.absorb_pend,
    hi.pend_length, hi.reset_idle⟩

theorem State.Inv.nextTurn (hi : s.Inv) : s.nextTurn.2.Inv := by
  unfold State.nextTurn
  split
  · exact hi.setSchedule s.port _
  · exact hi

theorem State.Inv.signalError (hi : s.Inv) {c : ErrCode} (hc : c ≠ .noError) : (s.signalError c).Inv := by
  cases he : s.err with
  | true => rwa [State.signalError, if_pos he]
  | false =>
    rw [State.signalError, if_neg (by simp [he])]
    exact ⟨hi.busy_iff, hi.step_zero, by simp [hc], hi.idle_clear, hi.absorb_fill, hi.done_fill, hi.bitlen_bytes,
      hi.absorb_pend, hi.pend_length, hi.reset_idle⟩

theorem State.Inv.clearError (hi : s.Inv) : s.clearError.Inv :=
  ⟨hi.busy_iff, hi.step_zero, by simp, hi.idle_clear, hi.absorb_fill, hi.done_fill, hi.bitlen_bytes,
    hi.absorb_pend, hi.pend_length, hi.reset_idle⟩

theorem State.Inv.initEffect (hi : s.Inv) (hb : s.busy = false) (hr : s.resetIn = false) : (initEffect s).Inv := by
  obtain ⟨he, hp, hs⟩ := hi.at_rest hb
  refine ⟨hi.busy_iff, hi.step_zero, hi.err_iff, ?_, ?_, ?_, ?_, ?_, hi.pend_length, ?_⟩ <;> simp [hp, hr]

/-- Counting `n` message bytes: FILL and BITLEN move together (R108). -/
theorem extract_fill_add (x : BitVec 64) (n : Nat) (hn : n ≤ 4) :
    (x + 8 * BitVec.ofNat 64 n).extractLsb' 3 6 = x.extractLsb' 3 6 + BitVec.ofNat 6 n := by
  apply BitVec.eq_of_toNat_eq
  simp only [BitVec.extractLsb'_toNat, BitVec.toNat_add, BitVec.toNat_mul, BitVec.toNat_ofNat, Nat.shiftRight_eq_div_pow,
    show (8 : BitVec 64).toNat = 8 from rfl]
  omega

theorem extract_low_add (x : BitVec 64) (n : Nat) :
    (x + 8 * BitVec.ofNat 64 n).extractLsb' 0 3 = x.extractLsb' 0 3 := by
  apply BitVec.eq_of_toNat_eq
  simp only [BitVec.extractLsb'_toNat, BitVec.toNat_add, BitVec.toNat_mul, BitVec.toNat_ofNat, Nat.shiftRight_eq_div_pow,
    show (8 : BitVec 64).toNat = 8 from rfl]
  omega

theorem ofNat_fill_add_toNat (f : BitVec 6) (n : Nat) : (f + BitVec.ofNat 6 n).toNat = (f.toNat + n) % 64 := by
  simp [BitVec.toNat_add]

theorem State.Inv.absorbEffect (cnt : BitVec 2) (hi : s.Inv) (hb : s.busy = false) (hr : s.resetIn = false) :
    (absorbEffect cnt s).Inv := by
  by_cases hp : s.phase = .absorb
  · obtain ⟨he, hpe, hst⟩ := hi.at_rest hb
    have hn : cnt.toNat + 1 ≤ 4 := by have := cnt.isLt; omega
    have hf := s.fill.isLt
    rw [absorbEffect_eq cnt s hp]
    by_cases hl : s.fill.toNat + (absorbBytes s.data cnt).length < 64
    · rw [appendBytes_of_room _ s hb hl]
      refine ⟨hi.busy_iff, hi.step_zero, hi.err_iff, by simp [hp], ?_, by simp [hp], ?_, by simp [hpe], hi.pend_length,
        by simp [hr]⟩
      · intro _
        simp only [absorbBytes_length]
        rw [extract_fill_add _ _ hn, ← hi.absorb_fill hp]
      · exact (extract_low_add _ _).trans hi.bitlen_bytes
    · rw [appendBytes_of_full _ s hb (by omega)]
      have hlen := absorbBytes_length s.data cnt
      refine ⟨by simp [State.engineActive], by simp, hi.err_iff, by simp [hp], ?_, by simp [hp], ?_, ?_, ?_, by simp [hr]⟩
      · intro _
        simp only [absorbBytes_length]
        rw [extract_fill_add _ _ hn, ← hi.absorb_fill hp]
      · exact (extract_low_add _ _).trans hi.bitlen_bytes
      · intro _
        simp only [hpe, List.nil_append, List.length_drop, hlen, ofNat_fill_add_toNat]
        omega
      · simp only [hpe, List.nil_append, List.length_drop, hlen]
        omega
  · rw [Machine.absorbEffect, if_neg hp]
    exact hi.signalError (by simp)

theorem finalBytes_full (fill : BitVec 6) (bitlen : BitVec 64) : 64 ≤ fill.toNat + (finalBytes fill bitlen).length := by
  have := fill.isLt
  rw [finalBytes_length]
  split <;> omega

theorem finalBytes_fill (fill : BitVec 6) (bitlen : BitVec 64) :
    fill + BitVec.ofNat 6 (finalBytes fill bitlen).length = 0 := by
  apply BitVec.eq_of_toNat_eq
  have := fill.isLt
  rw [ofNat_fill_add_toNat, finalBytes_length]
  change _ = 0
  split <;> omega

theorem State.Inv.finalEffect (hi : s.Inv) (hb : s.busy = false) (hr : s.resetIn = false) : (finalEffect s).Inv := by
  by_cases hp : s.phase = .absorb
  · obtain ⟨he, hpe, hst⟩ := hi.at_rest hb
    rw [finalEffect_eq s hp, appendBytes_of_full _ s hb (finalBytes_full _ _)]
    refine ⟨by simp [State.engineActive], by simp, hi.err_iff, by simp, by simp, fun _ => finalBytes_fill _ _,
      hi.bitlen_bytes, by simp, ?_, by simp [hr]⟩
    have := s.fill.isLt
    simp only [hpe, List.nil_append, List.length_drop, finalBytes_length]
    split <;> omega
  · rw [Machine.finalEffect, if_neg hp]
    exact hi.signalError (by simp)

/-- A command accepted by a block that is ready keeps the invariant. -/
theorem State.Inv.commandEffect (c : Command) (hi : s.Inv) (h : s.Ready) : (commandEffect c s).Inv := by
  cases c with
  | nop => exact hi
  | init => exact hi.initEffect h.2 h.1
  | absorb cnt => exact hi.absorbEffect cnt h.2 h.1
  | final => exact hi.finalEffect h.2 h.1
  | clrerr => exact hi.clearError
  | illegal w => exact hi.signalError (by simp)

/-- A transition of the engine keeps the invariant. -/
theorem State.Inv.engineTransition (hi : s.Inv) : s.engineTransition.Inv := by
  cases he : s.eng with
  | run =>
    have hb : s.busy = true := by rw [hi.busy_iff, State.engineActive, he]; rfl
    rw [engineTransition_of_run he]
    refine ⟨?_, ?_, hi.err_iff, hi.idle_clear, hi.absorb_fill, hi.done_fill, hi.bitlen_bytes, hi.absorb_pend,
      hi.pend_length, hi.reset_idle⟩
    · rw [State.runStep_busy, hb, State.engineActive, State.runStep_eng]
      split <;> rfl
    · rw [State.runStep_eng, State.runStep_step]
      by_cases h47 : s.step = 47
      · intro _; rw [h47]; rfl
      · rw [if_neg h47]; simp
  | ff =>
    have hs : s.step = 0 := hi.step_zero (by rw [he]; simp)
    have hb : s.busy = true := by rw [hi.busy_iff, State.engineActive, he]; rfl
    rw [engineTransition_of_ff he]
    refine ⟨by simp [State.engineActive], fun _ => hs, hi.err_iff, ?_, hi.absorb_fill, hi.done_fill, hi.bitlen_bytes,
      hi.absorb_pend, hi.pend_length, hi.reset_idle⟩
    intro hp
    have := (hi.idle_clear hp).2.2
    simp [hb] at this
  | idle =>
    have hs : s.step = 0 := hi.step_zero (by rw [he]; simp)
    cases hp : s.pend with
    | nil => rw [engineTransition_of_rest (engineActive_eq_false.mpr ⟨he, hp⟩)]; exact hi
    | cons b rest =>
      have hb : s.busy = true := by rw [hi.busy_iff, State.engineActive, he, hp]; rfl
      rw [engineTransition_of_pend he hp]
      have hidle : s.phase ≠ .idle := fun e => by have := (hi.idle_clear e).2.2; simp [hb] at this
      have hl := hi.pend_length
      rw [hp, List.length_cons] at hl
      refine ⟨?_, ?_, by simpa using hi.err_iff, fun e => absurd (by simpa using e) hidle,
        by simpa using hi.absorb_fill, by simpa using hi.done_fill, by simpa using hi.bitlen_bytes, ?_, ?_,
        by simpa using hi.reset_idle⟩
      · unfold State.drainByte
        simp only
        split <;> simp [State.engineActive, he]
      · unfold State.drainByte
        simp only
        split <;> simp [hs]
      · intro h
        have := hi.absorb_pend (by simpa using h)
        rw [hp, List.length_cons] at this
        simp only [State.drainByte_pend, State.drainByte_fill]
        omega
      · simp only [State.drainByte_pend]; omega

theorem reset_block_inv (r : Bool) (port : List HostOp) (resp : Option Response) (ts : List Config.Turn) :
    State.Inv { State.reset with port := port, response := resp, turns := ts, resetIn := r } := by
  refine ⟨rfl, fun _ => rfl, ⟨fun _ => rfl, fun _ => rfl⟩, fun _ => ⟨rfl, rfl, rfl⟩, ?_, ?_, rfl, ?_, Nat.zero_le _,
    fun _ => rfl⟩ <;>
    intro h <;> cases h

end Sys2Proof.Machine
end

