-- ==== Sys2Proof/Laws/Engine.lean ====
section
/-! SUPPORT. What a run of the engine does: the 48 steps and the feed-forward of one block (41_compression.md rules R147,
R148), and the draining of PEND between two blocks (40_padder.md rule R107). -/

namespace Sys2Proof.Machine

variable {s : State}

/-- `n` steps from step `j` on. -/
def stepsFrom (buf : Vector Byte 64) : Nat → Fin 48 → Quad → Quad
  | 0, _, q => q
  | n + 1, j, q => stepsFrom buf n (j + 1) (engineStep buf j q)

theorem stepsFrom_eq_foldl (buf : Vector Byte 64) (n : Nat) : ∀ (j : Fin 48) (q : Quad),
    stepsFrom buf n j q = ((List.range n).map fun k => j + Fin.ofNat 48 k).foldl (fun q j => engineStep buf j q) q := by
  induction n with
  | zero => intro j q; rfl
  | succ n ih =>
    intro j q
    have shift : ∀ k, j + 1 + Fin.ofNat 48 k = j + Fin.ofNat 48 (k + 1) := by
      intro k
      apply Fin.ext
      simp only [Fin.val_add, Fin.val_ofNat, show (1 : Fin 48).val = 1 from rfl]
      omega
    rw [stepsFrom, ih, List.range_succ_eq_map, List.map_cons, List.foldl_cons, List.map_map]
    have h0 : j + Fin.ofNat 48 0 = j := by
      apply Fin.ext
      have := j.isLt
      simp only [Fin.val_add, Fin.val_ofNat]
      omega
    simp only [h0, Function.comp_def, shift, Nat.succ_eq_add_one]

theorem allSteps_eq (buf : Vector Byte 64) (q : Quad) : allSteps buf q = stepsFrom buf 48 0 q := by
  have : List.finRange 48 = (List.range 48).map fun k => (0 : Fin 48) + Fin.ofNat 48 k := by decide
  rw [stepsFrom_eq_foldl, allSteps, this]

/-- The steps that remain before the feed-forward, and the transition that finishes them. -/
theorem engineRun_steps (n : Nat) : ∀ s : State, s.eng = .run → s.step.val + (n + 1) = 48 →
    s.engineRun (n + 1) = { s with w := stepsFrom s.buf (n + 1) s.step s.w, step := 0, eng := .ff } := by
  induction n with
  | zero =>
    intro s he hs
    have h47 : s.step = 47 := Fin.ext (by change s.step.val = 47; omega)
    rw [State.engineRun, engineTransition_of_run he]
    simp only [State.engineRun, State.runStep, h47, if_true, stepsFrom]
    rfl
  | succ n ih =>
    intro s he hs
    have hval : (s.step + 1).val = s.step.val + 1 := by
      rw [Fin.val_add]
      change (s.step.val + 1) % 48 = _
      omega
    have h47 : s.step ≠ 47 := fun e => by rw [e] at hs; change 47 + _ = 48 at hs; omega
    rw [State.engineRun, engineTransition_of_run he, ih _ (by rw [State.runStep_eng, if_neg h47])
      (by rw [State.runStep_step, hval]; omega)]
    simp only [State.runStep, stepsFrom]

/-- From the start of a block to its feed-forward: 49 transitions (R147, R148). -/
theorem engineRun_block (s : State) : s.startBlock.engineRun 49 = { s with
    acc := compress s.acc s.buf, w := allSteps s.buf s.acc, step := 0, eng := .idle, busy := !s.pend.isEmpty } := by
  rw [show 49 = 48 + 1 from rfl, engineRun_add, engineRun_steps 47 _ rfl rfl]
  simp only [State.engineRun, State.engineTransition, State.finishBlock, State.startBlock, compress, allSteps_eq]

/-- From any step of a block to the end of its feed-forward. -/
theorem engineRun_rest_of_block (s : State) (he : s.eng = .run) :
    s.engineRun (48 - s.step.val + 1) = { s with
      acc := feedForward s.acc (stepsFrom s.buf (48 - s.step.val) s.step s.w),
      w := stepsFrom s.buf (48 - s.step.val) s.step s.w, step := 0, eng := .idle, busy := !s.pend.isEmpty } := by
  have := s.step.isLt
  obtain ⟨k, hk⟩ : ∃ k, 48 - s.step.val = k + 1 := ⟨47 - s.step.val, by omega⟩
  rw [hk, engineRun_add, engineRun_steps k _ he (by omega)]
  rfl

theorem drainPos_cons (f : BitVec 6) (n : Nat) :
    f - BitVec.ofNat 6 (n + 1) + 1 = f - BitVec.ofNat 6 n := by
  rw [BitVec.ofNat_add]
  bv_omega

/-- Draining bytes that do not fill the buffer (R148). -/
theorem engineRun_drain (bs : List Byte) : ∀ s : State, s.eng = .idle → s.pend = bs → s.busy = !bs.isEmpty →
    s.drainPos.toNat + bs.length < 64 →
    s.engineRun bs.length = { s with buf := writeBytes s.buf s.drainPos bs, pend := [], busy := false } := by
  induction bs with
  | nil =>
    intro s _ hp hb _
    simp only [List.length_nil, State.engineRun, writeBytes]
    rw [← hp]
    exact (congrArg (fun b => { s with busy := b }) (by simpa using hb) : { s with busy := s.busy } = _)
  | cons b bs ih =>
    intro s he hp _ hlen
    simp only [List.length_cons] at hlen
    have hpos : s.drainPos ≠ 63 := fun e => by rw [e] at hlen; change 63 + _ < 64 at hlen; omega
    have hd : s.drainByte b bs = { s with buf := setByte s.buf s.drainPos b, pend := bs, busy := !bs.isEmpty } := by
      unfold State.drainByte; simp only; rw [if_neg hpos]
    have hnext : (s.drainByte b bs).drainPos = s.drainPos + 1 := by
      rw [State.drainPos, State.drainByte_fill, State.drainByte_pend, State.drainPos, hp, List.length_cons]
      exact (drainPos_cons _ _).symm
    rw [List.length_cons, State.engineRun, engineTransition_of_pend he hp,
      ih _ (by rw [hd]; exact he) (by rw [hd]) (by rw [hd]) (by rw [hnext, fill_succ_toNat _ hpos]; omega), hnext, hd]
    simp only [writeBytes]

/-- Draining bytes that fill the buffer to its end: the last one starts the next block (R107, R148). -/
theorem engineRun_drain_full (bs : List Byte) : ∀ s : State, s.eng = .idle → s.pend = bs →
    s.drainPos.toNat + bs.length = 64 →
    s.engineRun bs.length = { s with buf := writeBytes s.buf s.drainPos bs, pend := [], busy := false }.startBlock := by
  induction bs with
  | nil => intro s _ _ hlen; have := s.drainPos.isLt; simp at hlen; omega
  | cons b bs ih =>
    intro s he hp hlen
    simp only [List.length_cons] at hlen
    by_cases hpos : s.drainPos = 63
    · have hnil : bs = [] := by
        cases bs with
        | nil => rfl
        | cons => rw [hpos] at hlen; change 63 + (_ + 1 + 1) = 64 at hlen; omega
      subst hnil
      rw [List.length_cons, State.engineRun, engineTransition_of_pend he hp]
      unfold State.drainByte
      simp only
      rw [if_pos hpos]
      rfl
    · have hd : s.drainByte b bs = { s with buf := setByte s.buf s.drainPos b, pend := bs, busy := !bs.isEmpty } := by
        unfold State.drainByte; simp only; rw [if_neg hpos]
      have hnext : (s.drainByte b bs).drainPos = s.drainPos + 1 := by
        rw [State.drainPos, State.drainByte_fill, State.drainByte_pend, State.drainPos, hp, List.length_cons]
        exact (drainPos_cons _ _).symm
      rw [List.length_cons, State.engineRun, engineTransition_of_pend he hp,
        ih _ (by rw [hd]; exact he) (by rw [hd]) (by rw [hnext, fill_succ_toNat _ hpos]; omega), hnext, hd]
      simp only [writeBytes]

/-! ### How long the engine has work -/

/-- The second block of a FINAL whose bytes wait. -/
def secondBlock (p : Phase) (pend : List Byte) : Nat := if p = .done ∧ pend ≠ [] then 49 else 0

/-- The transitions that remain before the engine is at rest: those of the block that runs, the bytes that wait, and a
second block when a FINAL's bytes wait. -/
def remaining (s : State) : Nat :=
  (match s.eng with
    | .run => 49 - s.step.val
    | .ff => 1
    | .idle => 0) + s.pend.length + secondBlock s.phase s.pend

theorem remaining_le (hi : s.Inv) : remaining s ≤ 162 := by
  have := hi.pend_length
  unfold remaining secondBlock
  cases s.eng <;> simp only <;> split <;> omega

/-- Where the waiting bytes end: at the end of the buffer for a FINAL, before it for an ABSORB. -/
theorem drainPos_add_length (hi : s.Inv) (hp : s.pend ≠ []) :
    (s.phase = .done → s.drainPos.toNat + s.pend.length = 64) ∧
    (s.phase = .absorb → s.drainPos.toNat + s.pend.length = s.fill.toNat) ∧ s.phase ≠ .idle := by
  have hl := hi.pend_length
  have hpos : 0 < s.pend.length := List.length_pos_iff.mpr hp
  refine ⟨fun h => ?_, fun h => ?_, fun h => ?_⟩
  · rw [State.drainPos, hi.done_fill h]
    by_cases h64 : s.pend.length = 64
    · rw [h64]; rfl
    · have : s.pend.length < 64 := by omega
      rw [BitVec.toNat_sub, BitVec.toNat_ofNat]
      change (64 - s.pend.length % 64 + 0) % 64 + _ = 64
      omega
  · have hle := hi.absorb_pend h
    have hf := s.fill.isLt
    rw [State.drainPos, BitVec.toNat_sub, BitVec.toNat_ofNat]
    change (64 - s.pend.length % 64 + s.fill.toNat) % 64 + _ = _
    omega
  · have hb := (hi.idle_clear h).2.2
    exact hp (hi.at_rest hb).2.1

/-- Each transition of an engine that has work leaves one fewer. -/
theorem remaining_engineTransition (hi : s.Inv) (ha : s.engineActive = true) :
    remaining s.engineTransition + 1 = remaining s := by
  cases he : s.eng with
  | run =>
    rw [engineTransition_of_run he]
    unfold remaining
    simp only [State.runStep_eng, State.runStep_step, State.runStep_pend, State.runStep_phase, he]
    have hlt := s.step.isLt
    by_cases h47 : s.step = 47
    · rw [if_pos h47, h47]
      simp only [show (47 : Fin 48).val = 47 from rfl]
      omega
    · have hne : s.step.val ≠ 47 := fun e => h47 (Fin.ext e)
      have hval : (s.step + 1).val = s.step.val + 1 := by
        rw [Fin.val_add]
        change (s.step.val + 1) % 48 = _
        omega
      rw [if_neg h47]
      simp only [hval]
      omega
  | ff =>
    rw [engineTransition_of_ff he]
    unfold remaining
    simp only [State.finishBlock_eng, State.finishBlock_pend, State.finishBlock_phase, he]
    omega
  | idle =>
    cases hp : s.pend with
    | nil =>
      have hf : s.engineActive = false := engineActive_eq_false.mpr ⟨he, hp⟩
      rw [hf] at ha
      cases ha
    | cons b rest =>
      have hne : s.pend ≠ [] := by rw [hp]; simp
      obtain ⟨hdone, habs, hidle⟩ := drainPos_add_length hi hne
      rw [hp, List.length_cons] at hdone habs
      rw [engineTransition_of_pend he hp]
      have hd : s.drainByte b rest =
          if s.drainPos = 63 then { s with buf := setByte s.buf s.drainPos b, pend := rest, busy := !rest.isEmpty }.startBlock
          else { s with buf := setByte s.buf s.drainPos b, pend := rest, busy := !rest.isEmpty } := rfl
      cases hph : s.phase with
      | idle => exact absurd hph hidle
      | absorb =>
        have hlt := s.fill.isLt
        have h63 : s.drainPos ≠ 63 := fun e => by
          have := habs hph
          rw [e] at this
          change 63 + _ = _ at this
          omega
        rw [hd, if_neg h63]
        simp [remaining, secondBlock, he, hp, hph]
      | done =>
        by_cases h63 : s.drainPos = 63
        · have hnil : rest = [] := by
            have := hdone hph
            rw [h63] at this
            change 63 + _ = 64 at this
            exact List.length_eq_zero_iff.mp (by omega)
          rw [hd, if_pos h63, hnil]
          simp [remaining, secondBlock, he, hp, hph, hnil]
        · have hrest : rest ≠ [] := by
            intro e
            have := hdone hph
            rw [e] at this
            exact h63 (BitVec.eq_of_toNat_eq (by change _ = 63; simpa using this))
          rw [hd, if_neg h63]
          simp [remaining, secondBlock, he, hp, hph, hrest]

theorem engineRun_inv (n : Nat) : ∀ s : State, s.Inv → (s.engineRun n).Inv := by
  induction n with
  | zero => intro s hi; exact hi
  | succ n ih => intro s hi; exact ih _ hi.engineTransition

theorem remaining_pos (ha : s.engineActive = true) : 0 < remaining s := by
  unfold State.engineActive at ha
  have hlt := s.step.isLt
  unfold remaining
  cases he : s.eng <;> cases hp : s.pend <;> simp_all
  all_goals omega

/-- After as many transitions as remain the engine is at rest. -/
theorem engineRun_remaining (n : Nat) : ∀ s : State, s.Inv → remaining s ≤ n → (s.engineRun n).engineActive = false := by
  induction n with
  | zero =>
    intro s _ hr
    cases ha : s.engineActive with
    | false => exact ha
    | true => have := remaining_pos ha; omega
  | succ n ih =>
    intro s hi hr
    cases ha : s.engineActive with
    | false => rw [engineRun_of_rest _ ha]; exact ha
    | true => exact ih _ hi.engineTransition (by have := remaining_engineTransition hi ha; omega)

theorem settle_rest (hi : s.Inv) : s.settle.engineActive = false := engineRun_remaining 162 s hi (remaining_le hi)

theorem settle_inv (hi : s.Inv) : s.settle.Inv := engineRun_inv 162 s hi

theorem settle_busy (hi : s.Inv) : s.settle.busy = false := (settle_inv hi).busy_iff.trans (settle_rest hi)

/-- A transition of the engine does not change where it comes to rest. -/
theorem settle_engineTransition (hi : s.Inv) : s.engineTransition.settle = s.settle := by
  calc s.engineTransition.settle = s.engineRun (162 + 1) := rfl
    _ = s.settle.engineRun 1 := engineRun_add 162 1 s
    _ = s.settle := engineRun_of_rest 1 (settle_rest hi)

theorem settle_of_rest (h : s.engineActive = false) : s.settle = s := engineRun_of_rest 162 h

/-- Where the engine comes to rest from the start of a block with the bytes `bs` waiting for the next one: at the
compressed block and the waiting bytes in the buffer, or, when they are a whole block, at that block compressed too. -/
theorem settle_startBlock (u : State) (hf : u.fill = BitVec.ofNat 6 u.pend.length) (hl : u.pend.length ≤ 64) :
    u.startBlock.settle =
      let buf := writeBytes u.buf 0 u.pend
      let acc := compress u.acc u.buf
      if u.pend.length = 64 then
        { u with acc := compress acc buf, w := allSteps buf acc, step := 0, eng := .idle, buf := buf, pend := [], busy := false }
      else
        { u with acc := acc, w := allSteps u.buf u.acc, step := 0, eng := .idle, buf := buf, pend := [], busy := false } := by
  obtain ⟨k, hk⟩ : ∃ k, 162 = 49 + (u.pend.length + (49 + k)) := ⟨162 - 49 - 49 - u.pend.length, by omega⟩
  rw [State.settle, hk, engineRun_add, engineRun_block, engineRun_add]
  generalize hv : ({ u with acc := compress u.acc u.buf, w := allSteps u.buf u.acc, step := 0, eng := .idle, busy := !u.pend.isEmpty } : State) = v
  have hpos : v.drainPos = 0 := by
    rw [← hv, State.drainPos]
    simp only [hf]
    exact BitVec.sub_self _
  have hvp : v.pend = u.pend := by rw [← hv]
  have hve : v.eng = .idle := by rw [← hv]
  simp only
  by_cases h64 : u.pend.length = 64
  · rw [if_pos h64, engineRun_drain_full u.pend v hve hvp (by rw [hpos, h64]; rfl), engineRun_add, engineRun_block,
      engineRun_of_rest _ (engineActive_eq_false.mpr ⟨rfl, rfl⟩), hpos, ← hv]
    rfl
  · rw [if_neg h64, engineRun_drain u.pend v hve hvp (by rw [← hv]) (by rw [hpos]; change 0 + _ < 64; omega),
      engineRun_of_rest (49 + k) (engineActive_eq_false.mpr ⟨by exact hve, by rfl⟩), hpos, ← hv]

end Sys2Proof.Machine
end

