-- ==== Sys2Proof/Laws/Architecture.lean ====
section
/-! SUPPORT. The atomic reading of the commands (Machine/Architecture.lean): what it makes of a sequence of bytes. -/

namespace Sys2Proof.Machine

/-- A message or padding byte in the atomic reading, when it does not complete the block and when it does (R107). -/
theorem arch_appendByte_of_room (a : Arch) (b : Byte) (hf : a.fill ≠ 63) :
    a.appendByte b = { a with buf := setByte a.buf a.fill b, fill := a.fill + 1 } := by
  simp only [Arch.appendByte]; rw [if_neg hf]

theorem arch_appendByte_of_last (a : Arch) (b : Byte) (hf : a.fill = 63) :
    a.appendByte b = { a with
      buf := setByte a.buf a.fill b, fill := 0, acc := compress a.acc (setByte a.buf a.fill b) } := by
  simp only [Arch.appendByte]; rw [if_pos hf]

/-- Bytes that do not complete a block, in the atomic reading. -/
theorem arch_appendBytes_of_room (bs : List Byte) : ∀ a : Arch, a.fill.toNat + bs.length < 64 →
    bs.foldl Arch.appendByte a = { a with
      buf := writeBytes a.buf a.fill bs, fill := a.fill + BitVec.ofNat 6 bs.length } := by
  induction bs with
  | nil => intro a _; simp [writeBytes]
  | cons b bs ih =>
    intro a hlen
    simp only [List.length_cons] at hlen
    have hf : a.fill ≠ 63 := fun e => by rw [e] at hlen; change 63 + _ < 64 at hlen; omega
    rw [List.foldl_cons, arch_appendByte_of_room a b hf, ih _ (by
      change (a.fill + 1).toNat + _ < 64
      rw [fill_succ_toNat _ hf]; omega)]
    simp only [List.length_cons, ofNat_length_cons, writeBytes]

/-- Bytes that complete exactly one block, in the atomic reading. -/
theorem arch_appendBytes_of_block (bs : List Byte) : ∀ a : Arch, a.fill.toNat + bs.length = 64 →
    bs.foldl Arch.appendByte a = { a with
      buf := writeBytes a.buf a.fill bs, fill := 0, acc := compress a.acc (writeBytes a.buf a.fill bs) } := by
  induction bs with
  | nil => intro a hlen; have := a.fill.isLt; simp at hlen; omega
  | cons b bs ih =>
    intro a hlen
    simp only [List.length_cons] at hlen
    rw [List.foldl_cons]
    by_cases hf : a.fill = 63
    · have hnil : bs = [] := by
        cases bs with
        | nil => rfl
        | cons => rw [hf] at hlen; change 63 + (_ + 1 + 1) = 64 at hlen; omega
      subst hnil
      rw [arch_appendByte_of_last a b hf]
      simp only [List.foldl_nil, writeBytes]
    · rw [arch_appendByte_of_room a b hf, ih _ (by
        change (a.fill + 1).toNat + _ = 64
        rw [fill_succ_toNat _ hf]; omega)]
      simp only [writeBytes]

/-! ### What AppendByte leaves alone, and where FILL goes -/

@[simp] theorem arch_appendByte_fill (a : Arch) (b : Byte) : (a.appendByte b).fill = a.fill + 1 := by
  by_cases h : a.fill = 63
  · rw [arch_appendByte_of_last a b h, h]; rfl
  · rw [arch_appendByte_of_room a b h]

@[simp] theorem arch_appendByte_bitlen (a : Arch) (b : Byte) : (a.appendByte b).bitlen = a.bitlen := by
  unfold Arch.appendByte; simp only; split <;> rfl
@[simp] theorem arch_appendByte_data (a : Arch) (b : Byte) : (a.appendByte b).data = a.data := by
  unfold Arch.appendByte; simp only; split <;> rfl
@[simp] theorem arch_appendByte_phase (a : Arch) (b : Byte) : (a.appendByte b).phase = a.phase := by
  unfold Arch.appendByte; simp only; split <;> rfl
@[simp] theorem arch_appendByte_err (a : Arch) (b : Byte) : (a.appendByte b).err = a.err := by
  unfold Arch.appendByte; simp only; split <;> rfl
@[simp] theorem arch_appendByte_errcode (a : Arch) (b : Byte) : (a.appendByte b).errcode = a.errcode := by
  unfold Arch.appendByte; simp only; split <;> rfl

/-- A sequence of bytes leaves every field but ACC, BUF and FILL. -/
theorem arch_appendBytes_frame (bs : List Byte) : ∀ a : Arch,
    (bs.foldl Arch.appendByte a).fill = a.fill + BitVec.ofNat 6 bs.length ∧
    (bs.foldl Arch.appendByte a).bitlen = a.bitlen ∧ (bs.foldl Arch.appendByte a).data = a.data ∧
    (bs.foldl Arch.appendByte a).phase = a.phase ∧ (bs.foldl Arch.appendByte a).err = a.err ∧
    (bs.foldl Arch.appendByte a).errcode = a.errcode := by
  induction bs with
  | nil => intro a; simp
  | cons b bs ih =>
    intro a
    rw [List.foldl_cons, List.length_cons, ← ofNat_length_cons]
    simpa using ih (a.appendByte b)

theorem arch_appendByte_with_bitlen (a : Arch) (x : BitVec 64) (b : Byte) :
    { a with bitlen := x }.appendByte b = { a.appendByte b with bitlen := x } := by
  by_cases h : a.fill = 63
  · rw [arch_appendByte_of_last a b h, arch_appendByte_of_last _ b (by exact h)]
  · rw [arch_appendByte_of_room a b h, arch_appendByte_of_room _ b (by exact h)]

theorem arch_appendBytes_with_bitlen (bs : List Byte) : ∀ (a : Arch) (x : BitVec 64),
    bs.foldl Arch.appendByte { a with bitlen := x } = { bs.foldl Arch.appendByte a with bitlen := x } := by
  induction bs with
  | nil => intros; rfl
  | cons b bs ih => intro a x; rw [List.foldl_cons, arch_appendByte_with_bitlen, ih]; rfl

/-- The bytes of an ABSORB in the atomic reading: appended, and counted 8 bits each (R108). -/
theorem arch_foldl_absorbByte (bs : List Byte) : ∀ a : Arch, bs.foldl Arch.absorbByte a =
    { bs.foldl Arch.appendByte a with bitlen := a.bitlen + 8 * BitVec.ofNat 64 bs.length } := by
  induction bs with
  | nil => intro a; simp
  | cons b bs ih =>
    intro a
    rw [List.foldl_cons, ih, Arch.absorbByte, arch_appendBytes_with_bitlen]
    have : a.bitlen + 8 + 8 * BitVec.ofNat 64 bs.length = a.bitlen + 8 * BitVec.ofNat 64 (bs.length + 1) := by
      apply BitVec.eq_of_toNat_eq
      simp [BitVec.toNat_add, BitVec.toNat_mul]
      omega
    simp only [List.length_cons, this, List.foldl_cons]

theorem arch_absorb_eq (cnt : BitVec 2) (a : Arch) (h : a.phase = .absorb) :
    a.absorb cnt = { (absorbBytes a.data cnt).foldl Arch.appendByte a with
      bitlen := a.bitlen + 8 * BitVec.ofNat 64 (cnt.toNat + 1) } := by
  rw [Arch.absorb, if_pos h, arch_foldl_absorbByte, absorbBytes_length]

/-- The zero bytes of FINAL in the atomic reading. -/
theorem arch_padZeros_eq (fuel : Nat) : ∀ a : Arch, (56 - a.fill).toNat ≤ fuel →
    Arch.padZeros fuel a = (List.replicate (56 - a.fill).toNat 0x00).foldl Arch.appendByte a := by
  induction fuel with
  | zero =>
    intro s h
    have : (56 - s.fill).toNat = 0 := by omega
    rw [this]; rfl
  | succ n ih =>
    intro s h
    rw [Arch.padZeros]
    by_cases hf : s.fill = 56
    · rw [if_pos hf, hf]; rfl
    · have hne : (56 - s.fill).toNat ≠ 0 := by
        intro e
        apply hf
        have : (56 : BitVec 6) - s.fill = 0 := BitVec.eq_of_toNat_eq e
        bv_omega
      have hsub : (56 - (s.fill + 1)).toNat = (56 - s.fill).toNat - 1 := by bv_omega
      obtain ⟨k, hk⟩ : ∃ k, (56 - s.fill).toNat = k + 1 := ⟨(56 - s.fill).toNat - 1, by omega⟩
      rw [if_neg hf, ih _ (by rw [arch_appendByte_fill, hsub]; omega), arch_appendByte_fill, hsub, hk]
      simp [List.replicate_succ]

/-- FINAL in the atomic reading: the same bytes as the machine's. -/
theorem arch_final_eq (a : Arch) (h : a.phase = .absorb) :
    a.final = { (finalBytes a.fill a.bitlen).foldl Arch.appendByte a with phase := .done } := by
  have hz : (56 - (a.appendByte 0x80).fill).toNat = (55 - a.fill).toNat := by
    rw [arch_appendByte_fill]; bv_omega
  rw [Arch.final, if_pos h, arch_padZeros_eq 64 _ (by rw [hz]; have := (55 - a.fill).isLt; omega), hz, finalBytes,
    List.cons_append, List.foldl_cons, List.foldl_append]

/-- Where the engine comes to rest after bytes that completed the block: where the atomic reading of them leads. The
phase and BITLEN may be set beside them, as ABSORB and FINAL do. -/
theorem settle_appendBytes_of_full (s : State) (bs : List Byte) (ph : Phase) (x : BitVec 64) (hb : s.busy = false)
    (hp : s.pend = []) (hfull : 64 ≤ s.fill.toNat + bs.length) (hle : s.fill.toNat + bs.length ≤ 128) :
    (State.settle { s.appendBytes bs with phase := ph, bitlen := x }).arch =
      { bs.foldl Arch.appendByte s.arch with phase := ph, bitlen := x } := by
  have hf := s.fill.isLt
  generalize hu : ({ s with
      buf := writeBytes s.buf s.fill (bs.take (64 - s.fill.toNat)), fill := s.fill + BitVec.ofNat 6 bs.length,
      pend := s.pend ++ bs.drop (64 - s.fill.toNat), phase := ph, bitlen := x } : State) = u
  have h1 : ({ s.appendBytes bs with phase := ph, bitlen := x } : State) = u.startBlock := by
    rw [appendBytes_of_full bs s hb hfull, ← hu]; rfl
  have hup : u.pend = bs.drop (64 - s.fill.toNat) := by rw [← hu]; simp [hp]
  have hlen : u.pend.length = bs.length - (64 - s.fill.toNat) := by rw [hup, List.length_drop]
  have hufill : u.fill = s.fill + BitVec.ofNat 6 bs.length := by rw [← hu]
  have hfill : u.fill = BitVec.ofNat 6 u.pend.length := by
    rw [hlen, hufill]
    apply BitVec.eq_of_toNat_eq
    simp only [ofNat_fill_add_toNat, BitVec.toNat_ofNat]
    omega
  rw [h1, settle_startBlock u hfill (by rw [hlen]; omega)]
  have htl : (bs.take (64 - s.fill.toNat)).length = 64 - s.fill.toNat := by rw [List.length_take]; omega
  conv => rhs; rw [← List.take_append_drop (64 - s.fill.toNat) bs]
  rw [List.foldl_append, arch_appendBytes_of_block _ s.arch (by rw [htl]; change s.fill.toNat + _ = 64; omega)]
  by_cases h64 : u.pend.length = 64
  · have h0 : u.fill = 0 := by rw [hfill, h64]; rfl
    rw [hufill] at h0
    simp only
    rw [if_pos h64, arch_appendBytes_of_block _ _ (by change 0 + _ = 64; rw [← hup, h64])]
    simp only [State.arch, ← hu, hp, List.nil_append, h0]
  · have h0 := hfill
    rw [hufill, hup] at h0
    simp only
    rw [if_neg h64, arch_appendBytes_of_room _ _ (by change 0 + _ < 64; rw [← hup]; omega)]
    simp only [State.arch, ← hu, hp, List.nil_append, h0]
    congr 1
    exact (BitVec.zero_add _).symm

/-! ### A stream of whole blocks -/

/-- A full buffer, written from its start, is the block of the bytes written. -/
theorem writeBytes_block (buf : Vector Byte 64) (bs : List Byte) (h : bs.length = 64) :
    writeBytes buf 0 bs = blockAt bs 0 := by
  apply Vector.ext
  intro j hj
  have := getByte_writeBytes bs buf 0 (BitVec.ofNat 6 j) (by rw [h]; decide)
  rw [dif_pos (by simp; omega)] at this
  simp only [getByte, BitVec.toNat_ofNat, Nat.mod_eq_of_lt hj] at this
  rw [this]
  simp [blockAt, h]

theorem blockAt_succ (p : List Byte) (n : Nat) : blockAt p (n + 1) = blockAt (p.drop 64) n := by
  apply Vector.ext
  intro j hj
  simp only [blockAt, Vector.getElem_ofFn, List.getD_eq_getElem?_getD, List.getElem?_drop]
  congr 2
  omega

theorem blockAt_zero_take (p : List Byte) : blockAt (p.take 64) 0 = blockAt p 0 := by
  apply Vector.ext
  intro j hj
  simp only [blockAt, Vector.getElem_ofFn, List.getD_eq_getElem?_getD, List.getElem?_take]
  rw [if_pos (by omega)]

/-- `n` whole blocks appended from an empty buffer: each is compressed in its turn (R106, R110, R173). -/
theorem arch_appendBytes_blocks (n : Nat) : ∀ (bs : List Byte) (a : Arch), bs.length = 64 * n → a.fill = 0 →
    (bs.foldl Arch.appendByte a).acc =
      (List.range n).foldl (fun acc k => compress acc (blockAt bs k)) a.acc := by
  induction n with
  | zero =>
    intro bs a h _
    rw [List.length_eq_zero_iff.mp h]
    rfl
  | succ n ih =>
    intro bs a h hf
    have h64 : (bs.take 64).length = 64 := by rw [List.length_take]; omega
    conv => lhs; rw [← List.take_append_drop 64 bs]
    rw [List.foldl_append, arch_appendBytes_of_block (bs.take 64) a (by rw [hf, h64]; rfl),
      ih (bs.drop 64) _ (by rw [List.length_drop]; omega) rfl, hf, writeBytes_block _ _ h64, blockAt_zero_take,
      List.range_succ_eq_map, List.foldl_cons, List.foldl_map]
    simp only [blockAt_succ]

/-- The bytes FINAL appends after a whole message make it the padded message (R102 to R104, R110). -/
theorem append_finalBytes_eq_pad (m : List Byte) :
    m ++ finalBytes (BitVec.ofNat 6 m.length) (BitVec.ofNat 64 (8 * m.length)) = pad m := by
  have hz : (55 - BitVec.ofNat 6 m.length).toNat = zeroCount m.length := by
    rw [BitVec.toNat_sub, BitVec.toNat_ofNat]
    change (64 - m.length % 64 + 55) % 64 = (119 - m.length % 64) % 64
    congr 1
    omega
  rw [finalBytes, hz, pad, messageBits]
  simp

theorem pad_length (m : List Byte) : (pad m).length = 64 * blockCount m.length := by
  simp [pad, zeroCount, blockCount]
  omega

end Sys2Proof.Machine
end

