-- ==== Sys2Proof/Laws/Decode.lean ====
section
/-! SUPPORT. What the decoder answers, once for each of its functions (30_encoding.md rules R73, R76). -/

namespace Sys2Proof

/-- The fields of an access word read back. -/
theorem accessWord_fields (dir : Dir) (off : Offset) :
    (accessWord dir off).extractLsb' 0 6 = off ∧ Dir.ofBit ((accessWord dir off).extractLsb' 6 1) = dir := by
  revert off; cases dir <;> decide

/-- Every access word is the access word of its fields. -/
theorem accessWord_of_fields (aw : AccessWord) :
    accessWord (Dir.ofBit (aw.extractLsb' 6 1)) (aw.extractLsb' 0 6) = aw := by
  revert aw; decide

/-- A host access: BusError first, then by direction and offset (R57, R76). -/
theorem decode_access (dir : Dir) (off : Offset) (width : Width) (v : Word) :
    decode (.access (accessWord dir off) width v) =
      if off.extractLsb' 0 2 ≠ 0#2 ∨ width ≠ .w32 then .busError dir off width v
      else match dir with
        | .write => decodeWrite off v
        | .read => decodeRead off := by
  change decodeAccess _ _ _ = _
  unfold decodeAccess
  rw [(accessWord_fields dir off).1, (accessWord_fields dir off).2] <;> rfl

theorem offset_aligned_iff (off : Offset) : off.extractLsb' 0 2 = 0#2 ↔ off.toNat % 4 = 0 := by
  revert off; decide

/-- The mask and match of ABSORB admit its four words and no other (R73). -/
theorem absorb_mask_iff (w : Word) : w &&& 0xFCFFFFFF#32 = 0x20000000#32 ↔
    w = 0x20000000 ∨ w = 0x21000000 ∨ w = 0x22000000 ∨ w = 0x23000000 := by
  constructor
  · intro hm
    have hw : w = (w &&& 0xFCFFFFFF#32) ||| (w &&& 0x03000000#32) := by
      rw [← BitVec.and_or_distrib_left]; exact (BitVec.and_allOnes).symm
    have hc : w &&& 0x03000000#32 = (w.extractLsb' 24 2).setWidth 32 <<< 24 := by
      apply BitVec.eq_of_getLsbD_eq
      intro i hi
      have h3 : (0x03000000#32).getLsbD i = decide (24 ≤ i ∧ i < 26) := by
        revert i; decide
      simp only [BitVec.getLsbD_and, h3, BitVec.getLsbD_shiftLeft, BitVec.getLsbD_setWidth, BitVec.getLsbD_extractLsb']
      by_cases a : 24 ≤ i
      · by_cases b : i < 26
        · have h1 : 24 + (i - 24) = i := by omega
          have h2 : i - 24 < 2 := by omega
          have h3 : i - 24 < 32 := by omega
          simp [a, b, h1, h2, h3, hi]
        · have h2 : ¬ i - 24 < 2 := by omega
          simp [b, h2]
      · have h2 : i < 24 := by omega
        simp [a, h2]
    generalize w.extractLsb' 24 2 = c at hc
    rw [hm, hc] at hw
    have words : ∀ c : BitVec 2, 0x20000000#32 ||| c.setWidth 32 <<< 24 ∈
        [0x20000000#32, 0x21000000#32, 0x22000000#32, 0x23000000#32] := by decide
    have := words c
    rw [← hw] at this
    simpa using this
  · rintro (rfl | rfl | rfl | rfl) <;> decide

/-- What is shown of the eight legal words is shown of every legal word. -/
theorem forall_legalWords {P : Word → Prop} (h0 : P 0x00000000) (h1 : P 0x10000000) (h2 : P 0x20000000)
    (h3 : P 0x21000000) (h4 : P 0x22000000) (h5 : P 0x23000000) (h6 : P 0x30000000) (h7 : P 0x40000000) :
    ∀ w ∈ legalWords, P w := by
  intro w h
  simp only [legalWords, List.mem_cons, List.not_mem_nil, or_false] at h
  rcases h with rfl | rfl | rfl | rfl | rfl | rfl | rfl | rfl <;> assumption

/-- A word that is not legal is illegal (R73). -/
theorem decodeCommand_of_not_legal {w : Word} (h : w ∉ legalWords) : decodeCommand w = .illegal w := by
  simp only [legalWords, List.mem_cons, List.not_mem_nil, or_false, not_or] at h
  obtain ⟨h0, h1, h2, h3, h4, h5, h6, h7⟩ := h
  have hm : ¬ w &&& 0xFCFFFFFF#32 = 0x20000000#32 := fun hm => by
    rcases (absorb_mask_iff w).mp hm with r | r | r | r
    · exact h2 r
    · exact h3 r
    · exact h4 r
    · exact h5 r
  unfold decodeCommand
  rw [if_neg (show ¬ w = 0x00000000#32 from h0), if_neg (show ¬ w = 0x10000000#32 from h1), if_neg hm,
    if_neg (show ¬ w = 0x30000000#32 from h6), if_neg (show ¬ w = 0x40000000#32 from h7)]

/-- The word of each command but ILLEGAL. -/
theorem decodeCommand_eq_iff (w : Word) :
    (decodeCommand w = .nop ↔ w = 0x00000000) ∧ (decodeCommand w = .init ↔ w = 0x10000000) ∧
    (∀ cnt : BitVec 2, decodeCommand w = .absorb cnt ↔ w = cmdw 2 0 cnt 0) ∧
    (decodeCommand w = .final ↔ w = 0x30000000) ∧ (decodeCommand w = .clrerr ↔ w = 0x40000000) := by
  by_cases h : w ∈ legalWords
  · revert w
    refine forall_legalWords ?_ ?_ ?_ ?_ ?_ ?_ ?_ ?_ <;> decide
  · rw [decodeCommand_of_not_legal h]
    have absent : ∀ x ∈ legalWords, w ≠ x := fun x hx e => h (e ▸ hx)
    have words : ∀ cnt : BitVec 2, cmdw 2 0 cnt 0 ∈ legalWords := by decide
    refine ⟨⟨fun e => ?_, fun e => ?_⟩, ⟨fun e => ?_, fun e => ?_⟩, fun cnt => ⟨fun e => ?_, fun e => ?_⟩,
      ⟨fun e => ?_, fun e => ?_⟩, ⟨fun e => ?_, fun e => ?_⟩⟩
    all_goals first
      | cases e; done
      | exact absurd e (absent _ (by decide))
      | exact absurd e (absent _ (words cnt))

end Sys2Proof
end

