-- ==== Sys2Proof/Laws/Schedule.lean ====
section
/-! SUPPORT. The engine and what surrounds the block: a transition neither reads nor changes the port, the response and the
schedule; and the run of a machine with nothing scheduled (70_reset_and_hazards.md rule R258). -/

namespace Sys2Proof.Machine

variable {s : State}

/-- The block with another port, response and schedule around it. -/
def State.surround (s : State) (port : List HostOp) (response : Option Response) (turns : List Config.Turn) : State :=
  { s with port := port, response := response, turns := turns }

@[simp] theorem surround_port (p r ts) : (s.surround p r ts).port = p := rfl
@[simp] theorem surround_response (p r ts) : (s.surround p r ts).response = r := rfl
@[simp] theorem surround_turns (p r ts) : (s.surround p r ts).turns = ts := rfl
@[simp] theorem surround_arch (p r ts) : (s.surround p r ts).arch = s.arch := rfl

theorem engineTransition_surround (s : State) (p r ts) :
    (s.surround p r ts).engineTransition = s.engineTransition.surround p r ts := by
  cases he : s.eng with
  | run => simp only [State.engineTransition, State.surround, he]; rfl
  | ff => simp only [State.engineTransition, State.surround, he]; rfl
  | idle =>
    cases hp : s.pend with
    | nil => simp only [State.engineTransition, State.surround, he, hp]
    | cons b rest =>
      rw [engineTransition_of_pend he hp, engineTransition_of_pend (s := s.surround p r ts) he hp]
      unfold State.drainByte
      have : (s.surround p r ts).drainPos = s.drainPos := rfl
      simp only [this]
      by_cases h : s.drainPos = 63
      · rw [if_pos h, if_pos h]; rfl
      · rw [if_neg h, if_neg h]; rfl

theorem engineRun_surround (n : Nat) : ∀ (s : State) (p r ts),
    (s.surround p r ts).engineRun n = (s.engineRun n).surround p r ts := by
  induction n with
  | zero => intros; rfl
  | succ n ih => intro s p r ts; rw [State.engineRun, engineTransition_surround, ih]; rfl

theorem settle_surround (s : State) (p r ts) : (s.surround p r ts).settle = s.settle.surround p r ts :=
  engineRun_surround 162 s p r ts

/-- An answer makes no difference to where the engine comes to rest. -/
theorem settle_complete_arch (s : State) (r : Response) : (s.complete r).settle.arch = s.settle.arch := by
  have : s.complete r = s.surround s.port.tail (some r) s.turns := rfl
  rw [this, settle_surround, surround_arch]

/-- What any number of transitions leaves alone (R256). -/
theorem engineRun_frame (n : Nat) : ∀ s : State,
    (s.engineRun n).port = s.port ∧ (s.engineRun n).response = s.response ∧ (s.engineRun n).turns = s.turns ∧
    (s.engineRun n).data = s.data ∧ (s.engineRun n).phase = s.phase ∧ (s.engineRun n).bitlen = s.bitlen ∧
    (s.engineRun n).fill = s.fill ∧ (s.engineRun n).err = s.err ∧ (s.engineRun n).errcode = s.errcode ∧
    (s.engineRun n).resetIn = s.resetIn := by
  induction n with
  | zero => intro s; simp [State.engineRun]
  | succ n ih => intro s; have := ih s.engineTransition; simpa [State.engineRun] using this

/-- What coming to rest leaves of the state that commands read and write: all but ACC and BUF. -/
theorem settle_arch_frame (s : State) :
    s.settle.arch.fill = s.fill ∧ s.settle.arch.bitlen = s.bitlen ∧ s.settle.arch.data = s.data ∧
    s.settle.arch.phase = s.phase ∧ s.settle.arch.err = s.err ∧ s.settle.arch.errcode = s.errcode := by
  rw [State.settle]
  generalize 162 = n
  obtain ⟨-, -, -, h1, h2, h3, h4, h5, h6, -⟩ := engineRun_frame n s
  exact ⟨h4, h3, h1, h2, h5, h6⟩

/-- With nothing scheduled, as many steps as transitions remain are those transitions, and then the engine is at rest. -/
theorem runSteps_remaining (n : Nat) : ∀ s : State, s.Inv → s.turns = [] → remaining s = n →
    runSteps n s = .next (s.engineRun n) ∧ (s.engineRun n).engineActive = false := by
  induction n with
  | zero => intro s hi _ hr; exact ⟨rfl, engineRun_remaining 0 s hi (by omega)⟩
  | succ n ih =>
    intro s hi ht hr
    cases ha : s.engineActive with
    | false =>
      obtain ⟨he, hp⟩ := engineActive_eq_false.mp ha
      simp [remaining, secondBlock, he, hp] at hr
    | true =>
      have h1 := remaining_engineTransition hi ha
      have h2 := ih s.engineTransition hi.engineTransition (by simpa using ht) (by omega)
      exact ⟨(runSteps_succ_iff _ _ _).mpr
        ⟨s.engineTransition, by simp [step, nextTurn_of_active ht ha, runTurn], h2.1⟩, h2.2⟩

end Sys2Proof.Machine
end

