-- ==== Sys2Proof/Laws/HostProgram.lean ====
section
/-! SUPPORT. What a step of a host program can do, and how its runs compose. -/

namespace Sys2Proof.Machine

variable {p q r : HostProgram}

@[simp] theorem HostProgram.record_block (t : State) : (p.record t).block = t := rfl
@[simp] theorem HostProgram.record_current (t : State) : (p.record t).current = p.current := rfl
@[simp] theorem HostProgram.record_todo (t : State) : (p.record t).todo = p.todo := rfl

/-- Issuing accesses puts them behind those that wait. -/
theorem foldl_arrive (ops : List HostOp) : ∀ s : State, ops.foldl State.arrive s = { s with port := s.port ++ ops } := by
  induction ops with
  | nil => intro s; simp
  | cons op ops ih => intro s; rw [List.foldl_cons, ih]; simp [State.arrive]

theorem Stmt.assemble_ne_nil (st : Stmt) : st.assemble ≠ [] := by cases st <;> simp [Stmt.assemble]

/-- A statement other than `wait` is carried out once. -/
theorem Stmt.repeats_of_ne_wait {st : Stmt} (h : st ≠ .wait) (r : Option Response) : st.repeats r = false := by
  cases st <;> first | rfl | exact absurd rfl h

/-- BUSY of the word a read of STATUS returns (R36). -/
@[simp] theorem statusBusy_statusWord (s : State) : statusBusy s.statusWord = s.busy := by
  unfold statusBusy State.statusWord
  rw [BitVec.getLsbD_append]
  simp

theorem HostProgram.step_issue {st : Stmt} {rest : List Stmt} (hp : p.block.port = []) (hc : p.current = none)
    (ht : p.todo = st :: rest) : p.step = .next (p.issue st rest) := by
  simp [HostProgram.step, hp, hc, ht]

theorem HostProgram.step_finish {st : Stmt} (hp : p.block.port = []) (hc : p.current = some st) :
    p.step = .next (p.finish st) := by
  simp [HostProgram.step, hp, hc]

theorem HostProgram.step_of_waiting (hp : p.block.port ≠ []) : p.step = p.stepBlock := by
  unfold HostProgram.step
  cases h : p.block.port with
  | nil => exact absurd h hp
  | cons => rfl

theorem HostProgram.step_over (hc : p.current = none) (ht : p.todo = []) : p.step = p.stepBlock := by
  unfold HostProgram.step
  cases h : p.block.port <;> simp [hc, ht]

theorem HostProgram.stepBlock_of_next {t : State} (h : Sys2Proof.Machine.step p.block = .next t) :
    p.stepBlock = .next (p.record t) := by
  simp [HostProgram.stepBlock, h]

/-- What a step can do. -/
theorem HostProgram.step_cases (h : p.step = .next q) :
    (∃ t, Sys2Proof.Machine.step p.block = .next t ∧ q = p.record t) ∨
    (∃ st rest, p.block.port = [] ∧ p.current = none ∧ p.todo = st :: rest ∧ q = p.issue st rest) ∨
    (∃ st, p.block.port = [] ∧ p.current = some st ∧ q = p.finish st) := by
  have block : p.stepBlock = .next q → ∃ t, Sys2Proof.Machine.step p.block = .next t ∧ q = p.record t := fun h => by
    unfold HostProgram.stepBlock at h
    cases hs : Sys2Proof.Machine.step p.block <;> simp only [hs] at h <;> cases h
    exact ⟨_, rfl, rfl⟩
  by_cases hp : p.block.port = []
  · cases hc : p.current with
    | some st => rw [step_finish hp hc] at h; cases h; exact .inr (.inr ⟨st, hp, rfl, rfl⟩)
    | none =>
      cases ht : p.todo with
      | nil => rw [step_over hc ht] at h; exact .inl (block h)
      | cons st rest => rw [step_issue hp hc ht] at h; cases h; exact .inr (.inl ⟨st, rest, hp, rfl, rfl, rfl⟩)
  · rw [step_of_waiting hp] at h; exact .inl (block h)

theorem HostProgram.runSteps_succ_iff (n : Nat) (p q : HostProgram) :
    HostProgram.runSteps (n + 1) p = .next q ↔ ∃ r, p.step = .next r ∧ HostProgram.runSteps n r = .next q := by
  rw [HostProgram.runSteps]
  cases p.step <;> simp

theorem HostProgram.runSteps_add {m n : Nat} (h₁ : HostProgram.runSteps m p = .next q)
    (h₂ : HostProgram.runSteps n q = .next r) : HostProgram.runSteps (m + n) p = .next r := by
  induction m generalizing p with
  | zero => cases h₁; simpa using h₂
  | succ m ih =>
    obtain ⟨v, hv, hr⟩ := (runSteps_succ_iff m p q).mp h₁
    rw [Nat.succ_add]
    exact (runSteps_succ_iff _ _ _).mpr ⟨v, hv, ih hr⟩

end Sys2Proof.Machine
end

