-- ==== Sys2Proof/Laws/PerInstr.lean ====
section
/-! SUPPORT. One lemma for each constructor of Instr, for each family of LAWS.json: the encoding of a well-formed instruction
is a form the host issues (30_encoding.md rules R70, R76). -/

namespace Sys2Proof.Laws

def EncodingCanonical.Statement (i : Instr) : Prop := i.wf = true → (encode i).canonical = true

theorem EncodingCanonical.nop : EncodingCanonical.Statement .nop := fun _ => rfl

theorem EncodingCanonical.init : EncodingCanonical.Statement .init := fun _ => rfl

theorem EncodingCanonical.absorb (cnt : BitVec 2) : EncodingCanonical.Statement (.absorb cnt) := fun _ => rfl

theorem EncodingCanonical.final : EncodingCanonical.Statement .final := fun _ => rfl

theorem EncodingCanonical.clrerr : EncodingCanonical.Statement .clrerr := fun _ => rfl

theorem EncodingCanonical.illegal (w : Word) : EncodingCanonical.Statement (.illegal w) := fun _ => rfl

theorem EncodingCanonical.wrCmd (w : Word) : EncodingCanonical.Statement (.wrCmd w) := fun _ => rfl

theorem EncodingCanonical.wrData (v : Word) : EncodingCanonical.Statement (.wrData v) := fun _ => rfl

theorem EncodingCanonical.wrIgnored (off : Offset) (v : Word) : EncodingCanonical.Statement (.wrIgnored off v) := fun _ => by
  have h : ∀ off : Offset, (accessWord .write off).extractLsb' 6 1 = 1#1 := by decide
  simp [encode, HostOp.canonical, h off]

theorem EncodingCanonical.rdCmd : EncodingCanonical.Statement .rdCmd := fun _ => rfl

theorem EncodingCanonical.rdStatus : EncodingCanonical.Statement .rdStatus := fun _ => rfl

theorem EncodingCanonical.rdData : EncodingCanonical.Statement .rdData := fun _ => rfl

theorem EncodingCanonical.rdLenLo : EncodingCanonical.Statement .rdLenLo := fun _ => rfl

theorem EncodingCanonical.rdLenHi : EncodingCanonical.Statement .rdLenHi := fun _ => rfl

theorem EncodingCanonical.rdAcc (n : BitVec 2) : EncodingCanonical.Statement (.rdAcc n) := by revert n; unfold EncodingCanonical.Statement; decide

theorem EncodingCanonical.rdReserved (off : Offset) : EncodingCanonical.Statement (.rdReserved off) := by revert off; unfold EncodingCanonical.Statement; decide

theorem EncodingCanonical.busError (dir : Dir) (off : Offset) (width : Width) (v : Word) : EncodingCanonical.Statement (.busError dir off width v) := fun h => by
  rcases Bool.or_eq_true .. ▸ h with h | h
  · have low : ∀ off : Offset, (accessWord dir off).extractLsb' 0 2 = off.extractLsb' 0 2 := by cases dir <;> decide
    have : off.extractLsb' 0 2 ≠ 0#2 := fun e => by simp [(offset_aligned_iff off).mp e] at h
    simp [encode, HostOp.canonical, low off, this]
  · have : width ≠ .w32 := by simpa using h
    simp [encode, HostOp.canonical, this]

end Sys2Proof.Laws
end

