-- ==== Sys2Proof/Tests/Slice0.lean ====
section
/-! SUPPORT. Tests. The expected values are those of 95_test_vectors.md and of the rules' own examples, and the words are
written out from 30_encoding.md. After them, for every obligation with hypotheses, states and operands that meet them. -/

open Sys2Proof Sys2Proof.Machine

namespace Sys2Proof.Tests

/-! ### Small states -/

/-- The state after an instruction that answers a next state. -/
def after (i : Instr) (s : State) : State :=
  match exec i s with
  | .next t => t
  | .fault _ => s
  | .refused _ => s

/-- The state after one step of the machine with the word of the opcode table placed where the step reads it. -/
def stepWord (nbits w : Nat) (s : State) : State :=
  match step (s.withFetchWord nbits w) with
  | .next t => t
  | .fault _ => s
  | .refused _ => s

/-- PHASE = ABSORB after `fill` bytes of a message of `bytes` bytes. -/
def absorbing (fill : BitVec 6) (bytes : Nat) (data : Word) : State :=
  { State.reset with
    phase := .absorb, acc := initialState, fill := fill, bitlen := BitVec.ofNat 64 (8 * bytes), data := data }

/-- The last row of the table of 2.7: FILL 62, BITLEN 1F0, DATA "bcde". -/
def full62 : State := absorbing 62 62 0x65646362

/-- BUSY = 1 with two bytes waiting. -/
def busyAbsorb : State := after (.absorb 3) full62

/-- BUSY = 1 with a whole second block waiting. -/
def busyFinal : State := after .final (absorbing 63 63 0)

/-- PHASE = DONE at rest. -/
def done : State := { absorbing 0 0 0 with phase := .done }

/-! ### WellFormed: each check refuses an ill-formed term -/

theorem test_wf_illegal_refuses_a_legal_word : (Instr.illegal 0x23000000).wf = false := by decide
theorem test_wf_ignored_refuses_cmd_and_data :
    (Instr.wrIgnored 0x00 1).wf = false ∧ (Instr.wrIgnored 0x08 1).wf = false ∧ (Instr.wrIgnored 0x05 1).wf = false := by
  decide
theorem test_wf_reserved_refuses_registers_and_misaligned :
    (Instr.rdReserved 0x04).wf = false ∧ (Instr.rdReserved 0x20).wf = false ∧ (Instr.rdReserved 0x0D).wf = false := by
  decide
theorem test_wf_bus_error_refuses_an_aligned_word_access : (Instr.busError .read 0x04 .w32 0).wf = false := by decide

/-! ### Decoding: words written out bit by bit from 30_encoding.md -/

theorem test_decode_commands :
    decodeTableWord 32 0b00000000000000000000000000000000 = some .nop ∧
    decodeTableWord 32 0b00010000000000000000000000000000 = some .init ∧
    decodeTableWord 32 0b00100010000000000000000000000000 = some (.absorb 2) ∧
    decodeTableWord 32 0b00110000000000000000000000000000 = some .final ∧
    decodeTableWord 32 0b01000000000000000000000000000000 = some .clrerr := by decide

/-- 2.7: CNT with NOP, a bit of RSV0, each bit of RSV1, CNT with FINAL, CLRERR with bit 8, OP = F, all ones. -/
theorem test_decode_illegal :
    decodeTableWord 32 0x01000000 = some (.illegal 0x01000000) ∧
    decodeTableWord 32 0x20000001 = some (.illegal 0x20000001) ∧
    decodeTableWord 32 0x24000000 = some (.illegal 0x24000000) ∧
    decodeTableWord 32 0x28000000 = some (.illegal 0x28000000) ∧
    decodeTableWord 32 0x31000000 = some (.illegal 0x31000000) ∧
    decodeTableWord 32 0x40000100 = some (.illegal 0x40000100) ∧
    decodeTableWord 32 0xF0000000 = some (.illegal 0xF0000000) ∧
    decodeTableWord 32 0xFFFFFFFF = some (.illegal 0xFFFFFFFF) := by decide

/-- The access words of R76; 40 bits carry the data lanes as well. -/
theorem test_decode_writes :
    decodeTableWord 7 0b1000000 = some (.wrCmd 0) ∧ decodeTableWord 8 0b1001000 = some (.wrData 0) ∧
    decodeTableWord 40 0x3000000040 = some (.wrCmd 0x30000000) ∧
    decodeTableWord 40 0x0063626148 = some (.wrData 0x00636261) ∧
    decodeTableWord 7 0b1000100 = some (.wrIgnored 0x04 0) ∧ decodeTableWord 7 0b1111100 = some (.wrIgnored 0x3C 0) := by
  decide

theorem test_decode_reads :
    decodeTableWord 7 0b0000000 = some .rdCmd ∧ decodeTableWord 7 0b0000100 = some .rdStatus ∧
    decodeTableWord 7 0b0001000 = some .rdData ∧ decodeTableWord 7 0b0010000 = some .rdLenLo ∧
    decodeTableWord 7 0b0010100 = some .rdLenHi ∧ decodeTableWord 7 0b0100000 = some (.rdAcc 0) ∧
    decodeTableWord 7 0b0101100 = some (.rdAcc 3) ∧ decodeTableWord 7 0b0001100 = some (.rdReserved 0x0C) ∧
    decodeTableWord 7 0b0111100 = some (.rdReserved 0x3C) := by decide

theorem test_decode_bus_errors :
    decodeTableWord 7 0b0000001 = some (.busError .read 0x01 .w32 0) ∧
    decodeTableWord 7 0b1001010 = some (.busError .write 0x0A .w32 0) ∧
    decode (.access 0b0000100 .w16 0) = .busError .read 0x04 .w16 0 := by decide

/-- What is no encoded form is rejected, by name. -/
theorem test_decode_rejects :
    decodeTableWord 8 0x80 = none ∧ decodeTableWord 16 0 = none ∧
    commandOfBytes [0, 0, 0] = .error .commandLength ∧ accessOfBytes [] = .error .accessEmpty ∧
    accessOfBytes [0x80] = .error .accessBitSeven ∧ accessOfBytes [0x40, 0] = .error .dataLength ∧
    HostOp.ofTableWord 16 0 = .error .formLength := by decide

/-! ### One step from reset and from small states: the table of 2.7 -/

theorem test_nop : (stepWord 32 0x00000000 State.reset).statusWord = 0x00000000 ∧
    (stepWord 32 0x00000000 (absorbing 0 0 0)).statusWord = 0x00000002 := by decide
theorem test_init : (stepWord 32 0x10000000 State.reset).statusWord = 0x00000002 ∧
    (stepWord 32 0x10000000 State.reset).acc = ⟨0x67452301, 0xEFCDAB89, 0x98BADCFE, 0x10325476⟩ := by decide
theorem test_init_keeps_the_error :
    (stepWord 32 0x10000000 { absorbing 7 7 0 with err := true, errcode := .illegal }).statusWord = 0x0000001A := by decide
/-- R108's example: "abc" after INIT. -/
theorem test_absorb : (stepWord 32 0x22000000 (absorbing 0 0 0x00636261)).statusWord = 0x00000302 ∧
    (stepWord 32 0x22000000 (absorbing 0 0 0x00636261)).bitlen = 0x18 ∧
    (stepWord 32 0x23000000 State.reset).statusWord = 0x00000028 := by decide
/-- The last row of 2.7: STATUS 202 once BUSY is 0, and BITLEN 210. -/
theorem test_absorb_across_a_block : busyAbsorb.statusWord = 0x00000203 ∧ busyAbsorb.bitlen = 0x210 ∧
    busyAbsorb.pend = [0x64, 0x65] ∧ getByte busyAbsorb.buf 63 = 0x63 := by decide
theorem test_final : (stepWord 32 0x30000000 (absorbing 3 3 0)).statusWord = 0x00000005 ∧
    (stepWord 32 0x30000000 State.reset).statusWord = 0x00000028 := by decide
/-- V-P4 line 10: a second FINAL. -/
theorem test_final_when_done : (stepWord 32 0x30000000 done).statusWord = 0x0000002C := by decide
theorem test_clrerr :
    (stepWord 32 0x40000000 { absorbing 0 0 0 with err := true, errcode := .illegal }).statusWord = 0x00000002 := by decide
theorem test_illegal : (stepWord 32 0x10000001 State.reset).statusWord = 0x00000018 ∧
    (stepWord 32 0x50000000 { State.reset with err := true, errcode := .badPhase }).statusWord = 0x00000028 := by decide
theorem test_wr_cmd : (stepWord 40 0x1000000040 State.reset).statusWord = 0x00000002 := by decide
theorem test_wr_data : (stepWord 40 0x0063626148 State.reset).data = 0x00636261 := by decide
/-- 2.7: `wr STATUS, FFFFFFFF`, `wr LEN_LO, FFFFFFFF`, `wr ACC0, 12345678`. -/
theorem test_wr_ignored : (stepWord 40 0xFFFFFFFF44 State.reset).statusWord = 0 ∧
    (stepWord 40 0xFFFFFFFF50 State.reset).bitlen = 0 ∧ (stepWord 40 0x1234567860 State.reset).acc = State.reset.acc := by
  decide
theorem test_rd_cmd : (stepWord 7 0x00 State.reset).response = some (.value 0) := by decide
theorem test_rd_status : (stepWord 7 0x04 (absorbing 3 3 0)).response = some (.value 0x00000302) ∧
    (stepWord 7 0x04 busyAbsorb).response = some (.value 0x00000203) := by decide
theorem test_rd_data : (stepWord 7 0x08 (absorbing 3 3 0x00636261)).response = some (.value 0x00636261) := by decide
theorem test_rd_len : (stepWord 7 0x10 (absorbing 3 3 0)).response = some (.value 0x18) ∧
    (stepWord 7 0x14 { absorbing 0 0 0 with bitlen := 0x100000000 }).response = some (.value 1) := by decide
theorem test_rd_acc : (stepWord 7 0x24 (absorbing 0 0 0)).response = some (.value 0xEFCDAB89) ∧
    (stepWord 7 0x20 State.reset).response = some (.fault .accHasNoValue) := by decide
theorem test_rd_reserved : (stepWord 7 0x3C State.reset).response = some (.value 0) := by decide
theorem test_bus_error : (stepWord 7 0x42 State.reset).response = some (.fault (.busError 0x02)) ∧
    (stepWord 7 0x42 busyAbsorb).busy = true ∧ (stepWord 7 0x42 State.reset).statusWord = 0 := by decide
/-- V-D3: the wrap of BITLEN. -/
theorem test_bitlen_wraps :
    (after (.absorb 0) { absorbing 63 0 0 with bitlen := 0xFFFFFFFFFFFFFFF8 }).bitlen = 0 := by decide

/-! ### Host programs (R77, R78) -/

/-- The program after one step. -/
def programAfter (p : HostProgram) : HostProgram :=
  match p.step with
  | .next q => q
  | .fault _ | .refused _ => p

/-- A `wait` whose read of STATUS has been answered by `v`, with a FINAL to follow. -/
def waitAnswered (s : State) (v : Word) : HostProgram :=
  ⟨{ s with response := some (.value v) }, some .wait, [.final], [.value v]⟩

/-- The last row of 2.7: STATUS reads 203 while BUSY = 1 and 202 afterwards. -/
theorem test_wait_reads_status :
    (programAfter ⟨{ busyAbsorb with port := [.access 0b0000100 .w32 0], turns := [.host] }, some .wait, [.final], []⟩).answers =
      [.value 0x00000203] := by decide
theorem test_wait_repeats_while_busy :
    (programAfter (waitAnswered busyAbsorb 0x00000203)).todo = [.wait, .final] ∧
    (programAfter (waitAnswered full62 0x00000202)).todo = [.final] := by decide

/-! ### Tables 2.1 to 2.6 -/

theorem test_round_functions :
    fnF 0xFFFFFFFF 0x12345678 0x9ABCDEF0 = 0x12345678 ∧ fnF 0 0x12345678 0x9ABCDEF0 = 0x9ABCDEF0 ∧
    fnG 0xFFFFFFFF 0x12345678 0x9ABCDEF0 = 0x9ABCDEF8 ∧ fnG 0 0x12345678 0x9ABCDEF0 = 0x12345670 ∧
    fnH 0xFFFFFFFF 0x12345678 0x9ABCDEF0 = 0x77777777 ∧ fnG 0xF0F0F0F0 0xFF00FF00 0x0FF00FF0 = 0xFFF0FFF0 ∧
    fnH 0xF0F0F0F0 0xFF00FF00 0x0FF00FF0 = 0 := by decide
theorem test_rotl :
    rotl32 0x80000001 1 = 3 ∧ rotl32 0x80000001 3 = 0xC ∧ rotl32 0x12345678 19 = 0xB3C091A2 ∧
    rotl32 0x00000001 31 = 0x80000000 ∧ rotl32 0x67452301 3 = 0x3A29180B := by decide
theorem test_padding_lengths :
    [0, 1, 3, 55, 56, 57, 63, 64, 65, 119, 120].map zeroCount = [55, 54, 52, 0, 63, 62, 56, 55, 54, 0, 63] ∧
    [0, 1, 3, 55, 56, 57, 63, 64, 65, 119, 120].map blockCount = [1, 1, 1, 1, 2, 2, 2, 2, 2, 2, 3] := by decide
/-- V-T1, rows 0, 16 and 47. -/
theorem test_trace_of_the_empty_message :
    stepsUpTo 1 (blockAt (pad []) 0) initialState = ⟨0x10325476, 0x000003F8, 0xEFCDAB89, 0x98BADCFE⟩ ∧
    stepsUpTo 17 (blockAt (pad []) 0) initialState = ⟨0xA483A664, 0x7A08FB05, 0x3665F296, 0x8EE8F245⟩ ∧
    stepsUpTo 48 (blockAt (pad []) 0) initialState = ⟨0x798AB330, 0x421BBF48, 0x3E9E5FB9, 0xB0576C6A⟩ := by
  decide +kernel
/-- V-S2, rendered low byte first (R174). -/
theorem test_digest_of_a : messageDigest [0x61] =
    [0xBD, 0xE5, 0x2C, 0xB3, 0x1D, 0xE3, 0x3E, 0x46, 0x24, 0x5E, 0x05, 0xFB, 0xDB, 0xD6, 0xFB, 0x24] := by decide +kernel
/-- V-E1: 56 times "a", two blocks. -/
theorem test_digest_of_two_blocks : messageState (List.replicate 56 0x61) =
    ⟨0xE9A9F9D5, 0xA5777025, 0x920B8BF0, 0xADB048F3⟩ := by decide +kernel
/-- V-E1: 62 times "a" and "bcde": the block completed inside an ABSORB, then FINAL. -/
theorem test_engine_runs_across_a_block :
    (after .final (State.settle (after (.absorb 3)
      { full62 with buf := Vector.replicate 64 0x61 }))).settle.acc =
      ⟨0x61C940A0, 0x1B0E2D3A, 0xC62FE0E9, 0x4FAD1616⟩ := by decide +kernel

/-! ### Witnesses: states and operands that meet the hypotheses of each obligation -/

theorem absorbing_ready (f : BitVec 6) (n : Nat) (v : Word) : (absorbing f n v).Ready := ⟨rfl, rfl⟩
theorem reset_ready : State.reset.Ready := ⟨rfl, rfl⟩
theorem done_ready : done.Ready := ⟨rfl, rfl⟩

theorem absorbing_inv (fill : BitVec 6) (n : Nat) (v : Word)
    (h : fill = (BitVec.ofNat 64 (8 * n)).extractLsb' 3 6) (h0 : (BitVec.ofNat 64 (8 * n)).extractLsb' 0 3 = 0) :
    (absorbing fill n v).Inv :=
  ⟨rfl, fun _ => rfl, ⟨fun _ => rfl, fun _ => rfl⟩, fun e => (by cases e), fun _ => h, fun e => (by cases e), h0,
    fun _ => ⟨Nat.zero_le _, Nat.zero_le _⟩, Nat.zero_le _, fun e => (by cases e)⟩

theorem full62_inv : full62.Inv := absorbing_inv 62 62 _ (by decide) (by decide)
theorem full62_ready : full62.Ready := ⟨rfl, rfl⟩

theorem busyAbsorb_inv : busyAbsorb.Inv := by
  have : busyAbsorb = (absorbEffect 3 full62).complete .written := by decide
  rw [this]
  exact (full62_inv.absorbEffect 3 rfl rfl).complete _

theorem busyFinal_inv : busyFinal.Inv := by
  have : busyFinal = (finalEffect (absorbing 63 63 0)).complete .written := by decide
  rw [this]
  exact ((absorbing_inv 63 63 0 (by decide) (by decide)).finalEffect rfl rfl).complete _

theorem done_inv : done.Inv :=
  ⟨rfl, fun _ => rfl, ⟨fun _ => rfl, fun _ => rfl⟩, fun e => (by cases e), fun e => (by cases e), fun _ => rfl, rfl,
    fun e => (by cases e), Nat.zero_le _, fun e => (by cases e)⟩

/-- The host's next access, with the host's turn scheduled before the engine's. -/
def waiting : State := { busyAbsorb with port := [.access 0b1001000 .w32 5, .command 0x30000000], turns := [.host, .engine] }

/-- A read of STATUS waiting while BUSY = 1, and the host's turn. -/
def waitingStatus : State := { busyAbsorb with port := [.access 0b0000100 .w32 0], turns := [.host] }

/-- A command waiting at a block at rest. -/
def waitingAtRest (w : Word) (s : State) : State := { s with port := [.command w], turns := [.host] }

theorem witness_DecodeOfEncodeIsTheInstruction :
    ([.nop, .init, .absorb 0, .absorb 3, .final, .clrerr, .illegal 1, .illegal 0xFFFFFFFF, .wrCmd 0, .wrData 7,
      .wrIgnored 0x04 1, .wrIgnored 0x3C 1, .rdCmd, .rdStatus, .rdData, .rdLenLo, .rdLenHi, .rdAcc 0, .rdAcc 3,
      .rdReserved 0x0C, .rdReserved 0x3C, .busError .read 0x01 .w32 0, .busError .write 0x3C .w64 9] : List Instr).all
      Instr.wf = true := by decide
theorem witness_EncodeOfDecodeIsTheWord :
    (HostOp.command 0xFFFFFFFF).canonical = true ∧ (HostOp.access 0b1001000 .w32 7).canonical = true ∧
    (HostOp.access 0b0000100 .w32 0).canonical = true ∧ (HostOp.access 0b0000001 .w32 7).canonical = true ∧
    (HostOp.access 0b0000000 .w8 7).canonical = true := by decide
theorem witness_ExactlyEightWordsAreLegal :
    (0x50000000 : Word) ∉ legalWords ∧ (0x24000000 : Word) ∉ legalWords ∧ (0x00000001 : Word) ∉ legalWords ∧
    (0x01000000 : Word) ∉ legalWords ∧ (0x23000000 : Word) ∈ legalWords ∧ State.reset.Ready ∧ State.reset.err = false :=
  ⟨by decide, by decide, by decide, by decide, by decide, reset_ready, rfl⟩
theorem witness_AccessWordsSelectTheirAccess :
    (0x3F : Offset).toNat % 4 ≠ 0 ∧ Width.w16 ≠ Width.w32 ∧
    ((0x3C : Offset).toNat % 4 = 0 ∧ (0x3C : Offset) ≠ 0x00 ∧ (0x3C : Offset) ≠ 0x08) ∧
    (0x0C : Offset) ∈ [0x0C#6, 0x18#6, 0x1C#6, 0x30#6, 0x34#6, 0x38#6, 0x3C#6] := by decide

/-- Offsets at the ends of each clause's range. -/
theorem witness_StatementsAssembleToTheirAccesses :
    ((0x04 : Offset).toNat % 4 = 0 ∧ (0x04 : Offset) ≠ 0x00 ∧ (0x04 : Offset) ≠ 0x08) ∧
    ((0x3C : Offset).toNat % 4 = 0 ∧ (0x3C : Offset) ≠ 0x00 ∧ (0x3C : Offset) ≠ 0x08) ∧
    (0x01 : Offset).toNat % 4 ≠ 0 ∧ (0x3F : Offset).toNat % 4 ≠ 0 ∧
    (0x0C : Offset) ∈ [0x0C#6, 0x18#6, 0x1C#6, 0x30#6, 0x34#6, 0x38#6, 0x3C#6] ∧
    (0x3C : Offset) ∈ [0x0C#6, 0x18#6, 0x1C#6, 0x30#6, 0x34#6, 0x38#6, 0x3C#6] := by decide

theorem witness_StepExecutesTheDecodedAccess :
    (waiting.port = .access 0b1001000 .w32 5 :: [.command 0x30000000] ∧ waiting.turns = .host :: [.engine]) ∧
    ((full62.place (.command 0)).port = .command 0 :: [] ∧ { full62.place (.command 0) with turns := [] }.turns = [] ∧
      full62.eng = .idle ∧ full62.pend = []) ∧
    HostOp.ofTableWord 32 0x10000000 = .ok (.command 0x10000000) ∧
    HostOp.ofTableWord 7 0b0101100 = .ok (.access 0b0101100 .w32 0) := by decide
theorem witness_BusyHoldsEveryOtherAccess :
    busyAbsorb.busy = true ∧ busyAbsorb.resetIn = false ∧ Instr.final ≠ .rdStatus ∧
    (∀ dir off width v, Instr.final ≠ .busError dir off width v) ∧ full62.assertReset.resetIn = true := by
  refine ⟨by decide, by decide, by decide, fun _ _ _ _ => by simp, by decide⟩
theorem witness_AccessesLeaveThePortInOrder :
    step waiting = .next { waiting with turns := [.engine] } ∧
    ∃ t, step waitingStatus = .next t ∧ waitingStatus.nextTurn.1 = .host ∧ t.port = [] ∧ t.response.isSome := by
  refine ⟨rfl, _, rfl, ?_, ?_, ?_⟩ <;> decide
theorem witness_EngineComesToRest :
    (busyFinal.Inv ∧ busyFinal.resetIn = false ∧ busyFinal.turns = [] ∧ busyFinal.pend.length = 64) ∧
    (full62.eng = .idle ∧ full62.pend = []) ∧ busyFinal.eng ≠ .idle ∧
    ({ full62 with pend := [1], busy := true }.eng ≠ .idle ∨ { full62 with pend := [1], busy := true }.pend ≠ []) := by
  refine ⟨⟨busyFinal_inv, ?_, ?_, ?_⟩, ?_, ?_, ?_⟩ <;> decide
theorem witness_HeldAccessIsPerformed :
    { busyFinal with port := [.command 0x10000000] }.Inv ∧ { busyFinal with port := [.command 0x10000000] }.busy = true ∧
    { busyFinal with port := [.command 0x10000000] }.resetIn = false ∧
    { busyFinal with port := [.command 0x10000000] }.turns = [] ∧
    { busyFinal with port := [.command 0x10000000] }.port = .command 0x10000000 :: [] := by
  refine ⟨busyFinal_inv.setSchedule _ _, ?_, ?_, ?_, ?_⟩ <;> decide
theorem witness_RestingBlockKeepsItsState :
    full62.port = [] ∧ full62.eng = .idle ∧ full62.pend = [] ∧ full62.turns = [] := by decide
theorem witness_ResetLeavesTheStatedValues : ∃ s : State, busyFinal.assertReset = s.assertReset := ⟨_, rfl⟩
theorem witness_ResetAbandonsTheCompression :
    { busyFinal with turns := [.resetOn, .resetOff, .host] }.busy = true ∧
    { busyFinal with turns := [.resetOn, .resetOff, .host] }.turns = .resetOn :: .resetOff :: [.host] := by decide
theorem witness_OnlyInitLeavesIdle :
    State.reset.phase = .idle ∧ (∃ t, exec .init State.reset = .next t ∧ t.phase = .absorb) ∧
    (∃ t, exec (.wrCmd 0x10000000) State.reset = .next t ∧ t.phase = .absorb) ∧
    (∃ t, exec .final State.reset = .next t ∧ t.errcode = .badPhase) ∧
    (∃ t, exec (.absorb 3) State.reset = .next t ∧ t.errcode = .badPhase) ∧ State.reset.Ready ∧
    State.reset.err = false := by
  refine ⟨?_, ⟨_, rfl, ?_⟩, ⟨_, rfl, ?_⟩, ⟨_, rfl, ?_⟩, ⟨_, rfl, ?_⟩, reset_ready, ?_⟩ <;> decide

theorem witness_NopHasNoEffect : done.Ready ∧ (0x01000000 : Word).extractLsb' 28 4 = 0 ∧ (0x01000000 : Word) ≠ 0 :=
  ⟨done_ready, by decide, by decide⟩
theorem witness_InitStartsAMessage : done.Ready ∧ (∃ t, exec .init done = .next t) ∧
    (0x10000001 : Word).extractLsb' 28 4 = 1 ∧ (0x10000001 : Word) ≠ 0x10000000 ∧ busyFinal.busy = true :=
  ⟨done_ready, ⟨_, rfl⟩, by decide, by decide, by decide⟩
/-- One case below the block's end, at it, and beyond it. -/
theorem witness_AbsorbAppendsTheLowBytesOfData :
    ((absorbing 60 60 1).Ready ∧ (absorbing 60 60 1).phase = .absorb ∧ 60 + ((2 : BitVec 2).toNat + 1) < 64) ∧
    ((absorbing 60 60 1).Ready ∧ 64 ≤ 60 + ((3 : BitVec 2).toNat + 1)) ∧
    (full62.Ready ∧ full62.phase = .absorb ∧ 64 ≤ full62.fill.toNat + ((3 : BitVec 2).toNat + 1)) :=
  ⟨⟨absorbing_ready .., rfl, by decide⟩, ⟨absorbing_ready .., by decide⟩, full62_ready, rfl, by decide⟩
/-- FILL 55 and FILL 56: one block and two. -/
theorem witness_FinalPadsTheMessage :
    ((absorbing 55 55 0).Ready ∧ (absorbing 55 55 0).phase = .absorb ∧ (absorbing 55 55 0).fill.toNat ≤ 55) ∧
    ((absorbing 56 56 0).Ready ∧ (absorbing 56 56 0).phase = .absorb ∧ ¬ (absorbing 56 56 0).fill.toNat ≤ 55) :=
  ⟨⟨absorbing_ready .., rfl, by decide⟩, absorbing_ready .., rfl, by decide⟩
theorem witness_ErroneousCommandOnlyRecordsItsError :
    State.reset.Ready ∧ State.reset.phase ≠ .absorb ∧ done.Ready ∧ done.phase ≠ .absorb ∧
    (0x10000001 : Word) ∉ legalWords :=
  ⟨reset_ready, by decide, done_ready, by decide, by decide⟩
theorem witness_IllegalWordRecordsIllegal :
    (0x10000001 : Word) ∉ legalWords ∧ State.reset.Ready ∧ State.reset.err = false ∧
    { done with err := true, errcode := .badPhase }.Ready ∧ { done with err := true, errcode := .badPhase }.err = true :=
  ⟨by decide, reset_ready, rfl, ⟨rfl, rfl⟩, rfl⟩
theorem witness_RecordedErrorIsSticky :
    State.reset.err = false ∧ { done with err := true, errcode := .badPhase }.err = true ∧
    (∃ t, exec .init { done with err := true, errcode := .badPhase } = .next t) ∧ Instr.init ≠ .clrerr ∧
    Instr.init ≠ .wrCmd 0x40000000 :=
  ⟨rfl, rfl, ⟨_, rfl⟩, by decide, by decide⟩
theorem witness_ClrerrClearsOnlyTheRecord :
    { done with err := true, errcode := .badPhase }.Ready ∧ (0x40000100 : Word).extractLsb' 28 4 = 4 ∧
    (0x40000100 : Word) ≠ 0x40000000 ∧ full62.Inv ∧ full62.Ready ∧ full62.err = false :=
  ⟨⟨rfl, rfl⟩, by decide, by decide, full62_inv, full62_ready, rfl⟩
theorem witness_WrCmdDispatchesOnTheWord :
    ¬ ((0x24000000 : Word) ∈ [0x00000000#32, 0x10000000#32, 0x30000000#32, 0x40000000#32] ∨
      (0x24000000 : Word) &&& 0xFCFFFFFF = 0x20000000) ∧
    ((0x10000000 : Word) ∈ [0x00000000#32, 0x10000000#32, 0x30000000#32, 0x40000000#32] ∧
      (0x10000000 : Word).extractLsb' 28 4 = 1) ∧
    ((0x30000000 : Word) ∈ [0x00000000#32, 0x10000000#32, 0x30000000#32, 0x40000000#32] ∧
      (0x30000000 : Word).extractLsb' 28 4 = 3) ∧
    ((0x40000000 : Word) ∈ [0x00000000#32, 0x10000000#32, 0x30000000#32, 0x40000000#32] ∧
      (0x40000000 : Word).extractLsb' 28 4 = 4) ∧
    ((0x00000000 : Word) ∈ [0x00000000#32, 0x10000000#32, 0x30000000#32, 0x40000000#32] ∧
      (0x00000000 : Word).extractLsb' 28 4 = 0) ∧
    ((0x23000000 : Word) &&& 0xFCFFFFFF = 0x20000000 ∧ (0x23000000 : Word).extractLsb' 28 4 = 2) ∧
    busyAbsorb.busy = true := by decide
theorem witness_BusyIsSetByBlocksOnly :
    (full62.Ready ∧ (∃ t, exec (.absorb 1) full62 = .next t ∧ t.busy = true) ∧
      (∃ t, exec (.absorb 0) full62 = .next t ∧ t.busy = false)) ∧
    ((absorbing 0 0 0).Ready ∧ ∃ t, exec .final (absorbing 0 0 0) = .next t ∧ t.busy = true) ∧
    (State.reset.Ready ∧ ∃ t, exec .final State.reset = .next t ∧ t.busy = false) :=
  ⟨⟨full62_ready, ⟨_, rfl, by decide⟩, ⟨_, rfl, by decide⟩⟩, ⟨absorbing_ready .., ⟨_, rfl, by decide⟩⟩,
    reset_ready, ⟨_, rfl, by decide⟩⟩
theorem witness_BitLengthWrapsWithoutError :
    { absorbing 63 0 0 with bitlen := 0xFFFFFFFFFFFFFFF8 }.Ready ∧
    { absorbing 63 0 0 with bitlen := 0xFFFFFFFFFFFFFFF8 }.phase = .absorb ∧
    { absorbing 63 0 0 with bitlen := 0xFFFFFFFFFFFFFFF8 }.bitlen = 0xFFFFFFFFFFFFFFF8 ∧
    (∃ t, exec .final full62 = .next t ∧ t.bitlen = full62.bitlen) ∧
    (∃ t, exec .init full62 = .next t ∧ t.bitlen = 0) ∧ (∃ t, exec (.absorb 3) full62 = .next t ∧ t.bitlen = 0x210) :=
  ⟨⟨rfl, rfl⟩, rfl, rfl, ⟨_, rfl, by decide⟩, ⟨_, rfl, by decide⟩, ⟨_, rfl, by decide⟩⟩

theorem witness_WrDataLoadsData : done.Ready ∧ busyAbsorb.busy = true := ⟨done_ready, by decide⟩
theorem witness_OnlyWrDataChangesData :
    (∃ t, step ((done.place (.access 0b1001000 .w32 9))) = .next t ∧ t.data = 9) ∧
    (∃ t, step { full62 with turns := [.resetOn] } = .next t ∧ t.data = 0) ∧ ∃ t, step busyAbsorb = .next t :=
  ⟨⟨_, rfl, by decide⟩, ⟨_, rfl, by decide⟩, _, rfl⟩
theorem witness_IgnoredAndReservedAccesses :
    (0x3C : Offset) ∈ [0x04#6, 0x10#6, 0x14#6, 0x20#6, 0x24#6, 0x28#6, 0x2C#6, 0x0C#6, 0x18#6, 0x1C#6,
      0x30#6, 0x34#6, 0x38#6, 0x3C#6] ∧
    (0x0C : Offset) ∈ [0x0C#6, 0x18#6, 0x1C#6, 0x30#6, 0x34#6, 0x38#6, 0x3C#6] ∧ full62.Ready ∧ busyAbsorb.busy = true :=
  ⟨by decide, by decide, full62_ready, by decide⟩
theorem witness_RdCmdReturnsZero : full62.Ready ∧ busyAbsorb.busy = true := ⟨full62_ready, by decide⟩
theorem witness_RdStatusReturnsTheFields : busyFinal.resetIn = false ∧ full62.resetIn = false := by decide
theorem witness_RdDataReturnsData :
    full62.Ready ∧ busyAbsorb.busy = true ∧ ∃ t u, exec (.wrData 9) full62 = .next t ∧ exec .rdData t = .next u :=
  ⟨full62_ready, by decide, _, _, rfl, rfl⟩
theorem witness_RdLenReturnsTheHalvesOfBitlen : full62.Ready ∧ busyAbsorb.busy = true := ⟨full62_ready, by decide⟩
theorem witness_RdAccReturnsTheAccumulatorWord :
    (full62.Ready ∧ full62.phase ≠ .idle) ∧ (done.Ready ∧ done.phase ≠ .idle) ∧ busyFinal.busy = true :=
  ⟨⟨full62_ready, by decide⟩, ⟨done_ready, by decide⟩, by decide⟩
theorem witness_RdAccBeforeInitHasNoValue : State.reset.Ready ∧ State.reset.phase = .idle := ⟨reset_ready, rfl⟩
theorem witness_BusErrorChangesNoState :
    (0x02 : Offset).extractLsb' 0 2 ≠ 0 ∧ Width.w64 ≠ Width.w32 ∧ busyFinal.resetIn = false := by decide
theorem witness_ReadsHaveNoSideEffects : full62.Ready ∧
    (∃ t u, exec .rdLenLo full62 = .next t ∧ exec .rdLenLo t = .next u) ∧
    (∃ t u, exec .rdStatus busyFinal = .next t ∧ exec .rdStatus t = .next u) :=
  ⟨full62_ready, ⟨_, _, rfl, rfl⟩, _, _, rfl, rfl⟩

theorem witness_RoundFunctionsBitByBit : (31 : Nat) < 32 := by decide
theorem witness_RotateMovesEachBit : (1 ≤ 31 ∧ 31 ≤ 31 ∧ 0 < 32) ∧ (1 ≤ 1 ∧ 1 ≤ 31 ∧ 31 < 32) := by decide
/-- A held host access, a STATUS read that completes, and the engine's own turn, each while a block runs. -/
theorem witness_BlockWordsAreLittleEndian : (3 : Nat) < 4 ∧ busyFinal.eng ≠ .idle ∧
    (waiting.Inv ∧ waiting.eng ≠ .idle ∧ waiting.nextTurn.1 = .host ∧ ∃ t, step waiting = .next t) ∧
    (waitingStatus.Inv ∧ waitingStatus.eng ≠ .idle ∧ waitingStatus.nextTurn.1 = .host ∧
      ∃ t, step waitingStatus = .next t ∧ t.port = []) ∧
    (busyFinal.Inv ∧ busyFinal.nextTurn.1 = .engine ∧ ∃ t, step busyFinal = .next t) :=
  ⟨by decide, by decide, ⟨busyAbsorb_inv.setSchedule _ _, by decide, by decide, _, rfl⟩,
    ⟨busyAbsorb_inv.setSchedule _ _, by decide, by decide, _, rfl, by decide⟩, busyFinal_inv, by decide, _, rfl⟩
theorem witness_FixedVariableTablesAgree : (48 : Nat) ≤ 48 := by decide
theorem witness_EngineLeavesTheVisibleFields :
    (busyFinal.nextTurn.1 = .engine ∧ ∃ t, step busyFinal = .next t) ∧ full62.Ready ∧ full62.phase = .absorb :=
  ⟨⟨by decide, _, rfl⟩, full62_ready, rfl⟩
theorem witness_OnlyInitAndFeedForwardWriteAcc :
    (∃ t, step (waitingAtRest 0x10000000 done) = .next t ∧ t.acc = ⟨0x67452301, 0xEFCDAB89, 0x98BADCFE, 0x10325476⟩) ∧
    (∃ t, step { busyFinal with eng := .ff, step := 0 } = .next t ∧ t.acc.a = 0x67452301 + 0x67452301) ∧
    (∃ t, step { full62 with turns := [.resetOn] } = .next t ∧ t.acc? = none) :=
  ⟨⟨_, rfl, by decide⟩, ⟨_, rfl, by decide⟩, _, rfl, by decide⟩
theorem witness_PhaseMovesOnlyByInitFinalReset :
    (∃ t, step (waitingAtRest 0x30000000 full62) = .next t ∧ t.phase = .done) ∧
    (∃ t, step (waitingAtRest 0x10000000 done) = .next t ∧ t.phase = .absorb) ∧
    (∃ t, step { full62 with turns := [.resetOn] } = .next t ∧ t.phase = .idle) ∧ full62.Ready ∧
    full62.phase = .absorb :=
  ⟨⟨_, rfl, by decide⟩, ⟨_, rfl, by decide⟩, ⟨_, rfl, by decide⟩, full62_ready, rfl⟩
theorem witness_DigestStaysUntilInitOrReset :
    done.Inv ∧ done.phase = .done ∧ done.busy = false ∧ ∃ t, step done = .next t ∧ t.acc = done.acc :=
  ⟨done_inv, rfl, rfl, _, rfl, by decide⟩

theorem witness_EveryStepKeepsTheInvariant :
    (busyAbsorb.Inv ∧ ∃ t, step busyAbsorb = .next t) ∧
    ({ busyFinal with turns := [.resetOn] }.Inv ∧ ∃ t, step { busyFinal with turns := [.resetOn] } = .next t) :=
  ⟨⟨busyAbsorb_inv, _, rfl⟩, busyFinal_inv.setSchedule _ _, _, rfl⟩
theorem witness_CommandsRefineTheirAtomicForm : full62.Inv ∧ full62.Ready := ⟨full62_inv, full62_ready⟩
theorem witness_EveryScheduleGivesTheAtomicResult :
    { busyFinal with port := [.command 0x10000000, .access 0b1001000 .w32 9] }.Inv ∧ busyFinal.resetIn = false ∧
    noReset [.host, .engine, .host] = true :=
  ⟨busyFinal_inv.setSchedule _ _, by decide, by decide⟩
theorem witness_DigestIsPackedLittleEndian : (3 : Nat) < 4 := by decide
theorem witness_MessageIsHashedUnderEverySchedule :
    busyFinal.Inv ∧ busyFinal.resetIn = false ∧ noReset [.host, .engine, .host] = true ∧
    Delivery.bytes 0 [(some 0x64636261, 3), (none, 0)] = [0x61, 0x62, 0x63, 0x64, 0x61] :=
  ⟨busyFinal_inv, by decide, by decide, by decide⟩

/-- Two instances with adjacent windows; an access to the last word of the first. -/
def platform : Platform := [⟨⟨0x1000⟩, State.reset⟩, ⟨⟨0x1040⟩, full62⟩]
theorem witness_InstancesShareNothing :
    platform.wf = true ∧ (0 : Fin 2) ≠ 1 ∧ 0x1000 ≤ 0x103C ∧ 0x103C < 0x1000 + 64 ∧
    (platform.deliver .read 0x103C .w32 0).map (fun x => x.state.port.length) = [1, 0] ∧
    (0x103C < 0x1040 ∨ 0x1040 + 64 ≤ 0x103C) ∧ (∃ q, platform.stepAt (1 : Fin 2) = .next q) :=
  ⟨by decide, by decide, by decide, by decide, by decide, by decide, _, rfl⟩

/-- A read of STATUS answered with BUSY = 1 and with BUSY = 0, a `wait` to issue, and a block that runs while the host has
the first turn. -/
theorem witness_WaitReadsStatusUntilBusyIsZero :
    ((0x00000203 : Word).extractLsb' 0 1 = 1 ∧ (0x00000202 : Word).extractLsb' 0 1 = 0) ∧
    (∃ p : HostProgram, p.current = some .wait ∧ p.block.port = [] ∧ p.block.response = some (.value 0x00000203)) ∧
    (∃ p : HostProgram, p.current = some .wait ∧ p.block.port = [] ∧ p.block.response = some (.value 0x00000202)) ∧
    (∃ p : HostProgram, p.current = none ∧ p.block.port = [] ∧ p.todo = .wait :: [.final]) ∧
    ({ busyAbsorb with turns := [.host, .engine] }.Inv ∧ busyAbsorb.resetIn = false ∧ busyAbsorb.port = [] ∧
      noReset [.host, .engine] = true) :=
  ⟨by decide, ⟨waitAnswered busyAbsorb 0x00000203, rfl, by decide, rfl⟩,
    ⟨waitAnswered full62 0x00000202, rfl, rfl, rfl⟩,
    ⟨⟨full62, none, [.wait, .final], []⟩, rfl, rfl, rfl⟩,
    busyAbsorb_inv.setSchedule busyAbsorb.port _, by decide, by decide, by decide⟩
theorem witness_ProgramGivesTheAtomicResultWithOrWithoutWait :
    { busyFinal with turns := [.host, .engine, .host] }.Inv ∧ busyFinal.resetIn = false ∧ busyFinal.port = [] ∧
    noReset [.host, .engine, .host] = true ∧
    ([.wait, .init, .wait, .digest] : List Stmt).filter (· ≠ .wait) = [.init, .digest] :=
  ⟨busyFinal_inv.setSchedule busyFinal.port _, by decide, by decide, by decide, by decide⟩

end Sys2Proof.Tests
end

section
/-! The statements of the state (10_state.md): what every step keeps; which instructions move BUSY, BITLEN, DATA and
PHASE, from what a command can do (`commandEffect_cases`) and what an instruction can do (`exec_next_performs`); the
accesses that a host program's statements stand for; and what the reads of the state answer. -/

namespace Sys2Proof.Machine

variable {s t : State} {i : Instr} {c d : Command}

/-! ### The instructions that perform a command (R77, R190) -/

/-- The instruction performs the command: it is the command itself, or a write to CMD whose word decodes to it. -/
def Performs (i : Instr) (c : Command) : Prop := i = c.toInstr ∨ ∃ w, i = .wrCmd w ∧ decodeCommand w = c

theorem toInstr_inj : c.toInstr = d.toInstr ↔ c = d := by
  cases c <;> cases d <;> simp [Command.toInstr]

theorem toInstr_ne_wrCmd (c : Command) (w : Word) : c.toInstr ≠ .wrCmd w := by
  cases c <;> simp [Command.toInstr]

theorem Performs.unique (hc : Performs i c) (hd : Performs i d) : c = d := by
  obtain rfl | ⟨w, rfl, rfl⟩ := hc <;> obtain h | ⟨w', h, rfl⟩ := hd
  · exact toInstr_inj.mp h
  · exact absurd h (toInstr_ne_wrCmd _ _)
  · exact absurd h.symm (toInstr_ne_wrCmd _ _)
  · cases h; rfl

/-- A command that only one word selects is performed by that word and by the command itself. -/
theorem performs_iff_of_word {v : Word} (h : ∀ w, decodeCommand w = c ↔ w = v) :
    Performs i c ↔ i = c.toInstr ∨ i = .wrCmd v := by
  simp [Performs, h]

theorem decodeCommand_eq_absorb_iff (w : Word) (cnt : BitVec 2) :
    decodeCommand w = .absorb cnt ↔ w = cmdw 2 0 cnt 0 := by
  obtain ⟨-, -, habsorb, -, -⟩ := decodeCommand_eq_iff w
  exact habsorb cnt

theorem performs_init_iff : Performs i .init ↔ i = .init ∨ i = .wrCmd 0x10000000 :=
  performs_iff_of_word fun w => by
    obtain ⟨-, hinit, -, -, -⟩ := decodeCommand_eq_iff w
    exact hinit

theorem performs_absorb_iff (cnt : BitVec 2) : Performs i (.absorb cnt) ↔ i = .absorb cnt ∨ i = .wrCmd (cmdw 2 0 cnt 0) :=
  performs_iff_of_word fun w => decodeCommand_eq_absorb_iff w cnt

theorem performs_final_iff : Performs i .final ↔ i = .final ∨ i = .wrCmd 0x30000000 :=
  performs_iff_of_word fun w => by
    obtain ⟨-, -, -, hfinal, -⟩ := decodeCommand_eq_iff w
    exact hfinal

theorem not_performs_wrData (v : Word) (c : Command) : ¬ Performs (.wrData v) c := by
  cases c <;> simp [Performs, Command.toInstr]

/-- What an instruction can do, by the command it performs: it is held; it performs the command; it performs none and
loads DATA or only answers. -/
theorem exec_next_performs (h : exec i s = .next t) :
    (¬ s.Ready ∧ t = s) ∨
    (s.Ready ∧ ∃ c, Performs i c ∧ t = (commandEffect c s).complete .written) ∨
    ((∀ c, ¬ Performs i c) ∧ ∃ v, i = .wrData v ∧ t = { s with data := v }.complete .written) ∨
    ((∀ c, ¬ Performs i c) ∧ ∃ r, t = s.complete r) := by
  obtain ⟨ht, held⟩ | ⟨hr, c, hc, ht⟩ | ⟨-, v, rfl, ht⟩ | ⟨-, hcmd, hwr, -, r, ht⟩ := exec_next_cases h
  · refine .inl ⟨fun ⟨hreset, hbusy⟩ => ?_, ht⟩
    simp [hreset, hbusy] at held
  · exact .inr (.inl ⟨hr, c, hc, ht⟩)
  · exact .inr (.inr (.inl ⟨not_performs_wrData v, v, rfl, ht⟩))
  · exact .inr (.inr (.inr ⟨fun c hc => hc.elim (hcmd c) fun ⟨w, hw, _⟩ => hwr w hw, r, ht⟩))

/-! ### What a command can do -/

theorem exec_command_of_ready (c : Command) (hr : s.Ready) :
    exec c.toInstr s = .next ((commandEffect c s).complete .written) :=
  (exec_command c s).trans (whenReady_of_ready _ hr)

theorem signalError_eq_with (s : State) (code : ErrCode) :
    ∃ e ec, s.signalError code = { s with err := e, errcode := ec } := by
  unfold State.signalError
  split
  · exact ⟨s.err, s.errcode, rfl⟩
  · exact ⟨true, code, rfl⟩

/-- A command is INIT, or an ABSORB or FINAL in PHASE = ABSORB, which append their bytes; or it writes no field but ERR
and ERRCODE (R171, R108, R109, R191 to R193). -/
theorem commandEffect_cases (c : Command) (s : State) :
    (c = .init ∧ commandEffect c s = initEffect s) ∨
    (s.phase = .absorb ∧ ∃ cnt, c = .absorb cnt ∧ commandEffect c s =
      { s.appendBytes (absorbBytes s.data cnt) with bitlen := s.bitlen + 8 * BitVec.ofNat 64 (cnt.toNat + 1) }) ∨
    (s.phase = .absorb ∧ c = .final ∧
      commandEffect c s = { s.appendBytes (finalBytes s.fill s.bitlen) with phase := .done }) ∨
    ((s.phase = .absorb → c ≠ .final ∧ ∀ cnt, c ≠ .absorb cnt) ∧
      ∃ e ec, commandEffect c s = { s with err := e, errcode := ec }) := by
  cases c with
  | nop => exact .inr (.inr (.inr ⟨by simp, s.err, s.errcode, rfl⟩))
  | init => exact .inl ⟨rfl, rfl⟩
  | clrerr => exact .inr (.inr (.inr ⟨by simp, false, .noError, rfl⟩))
  | illegal w => exact .inr (.inr (.inr ⟨by simp, signalError_eq_with s _⟩))
  | absorb cnt =>
    by_cases hp : s.phase = .absorb
    · exact .inr (.inl ⟨hp, cnt, rfl, absorbEffect_eq cnt s hp⟩)
    · refine .inr (.inr (.inr ⟨fun h => absurd h hp, ?_⟩))
      rw [commandEffect, absorbEffect, if_neg hp]
      exact signalError_eq_with s _
  | final =>
    by_cases hp : s.phase = .absorb
    · exact .inr (.inr (.inl ⟨hp, rfl, finalEffect_eq s hp⟩))
    · refine .inr (.inr (.inr ⟨fun h => absurd h hp, ?_⟩))
      rw [commandEffect, finalEffect, if_neg hp]
      exact signalError_eq_with s _

/-! ### The invariant (R24, R27 to R33, R254) -/

theorem State.Inv.exec (hi : s.Inv) (h : exec i s = .next t) : t.Inv := by
  obtain ⟨-, rfl⟩ | ⟨hr, c, -, rfl⟩ | ⟨-, v, -, rfl⟩ | ⟨-, r, rfl⟩ := exec_next_performs h
  · exact hi
  · exact (hi.commandEffect c hr).complete _
  · exact (hi.setData v).complete _
  · exact hi.complete r

/-- Asserting reset leads to the invariant from any state (R250). -/
theorem assertReset_inv (s : State) : s.assertReset.Inv := reset_block_inv true s.port s.response s.turns

theorem State.Inv.releaseReset (hi : s.Inv) : s.releaseReset.Inv :=
  { hi with reset_idle := fun h => nomatch h }

/-- Settles O51: each kind of turn keeps the invariant. -/
theorem everyStepKeepsTheInvariant : Obligations.EveryStepKeepsTheInvariant := by
  intro s t hi h
  have hn := hi.nextTurn
  obtain ⟨-, i, -, he⟩ | ⟨-, -, rfl⟩ | ⟨-, rfl⟩ | ⟨-, rfl⟩ | ⟨-, rfl⟩ := step_cases h
  · exact hn.exec he
  · exact hn
  · exact hn.engineTransition
  · exact assertReset_inv _
  · exact hn.releaseReset

/-! ### BUSY (R33, R254) -/

/-- Bytes appended to a block at rest start the engine exactly when they reach its 64th byte (R107). -/
theorem appendBytes_busy_iff (bs : List Byte) (hb : s.busy = false) :
    (s.appendBytes bs).busy = true ↔ 64 ≤ s.fill.toNat + bs.length := by
  by_cases hl : 64 ≤ s.fill.toNat + bs.length
  · simp [appendBytes_of_full bs s hb hl, hl]
  · simp [appendBytes_of_room bs s hb (by omega), hb, hl]

theorem commandEffect_busy_iff (c : Command) (hb : s.busy = false) :
    (commandEffect c s).busy = true ↔ s.phase = .absorb ∧
      (c = .final ∨ ∃ cnt, c = .absorb cnt ∧ 64 ≤ s.fill.toNat + (cnt.toNat + 1)) := by
  obtain ⟨rfl, e⟩ | ⟨hp, cnt, rfl, e⟩ | ⟨hp, rfl, e⟩ | ⟨hc, err, code, e⟩ := commandEffect_cases c s <;> rw [e]
  · simp [hb]
  · simp [appendBytes_busy_iff _ hb, hp]
  · simp [appendBytes_busy_iff _ hb, hp, finalBytes_full]
  · simp only [hb, Bool.false_eq_true, false_iff]
    rintro ⟨hp, hfinal | ⟨cnt, habsorb, -⟩⟩
    · exact (hc hp).1 hfinal
    · exact (hc hp).2 cnt habsorb

/-- Settles O26: only a command writes BUSY, and the instruction performs no other command. -/
theorem busyIsSetByBlocksOnly : Obligations.BusyIsSetByBlocksOnly := by
  intro i s t hr h
  simp only [← or_assoc, ← performs_final_iff, ← performs_absorb_iff]
  obtain ⟨hn, -⟩ | ⟨-, c, hc, rfl⟩ | ⟨hn, v, -, rfl⟩ | ⟨hn, r, rfl⟩ := exec_next_performs h
  · exact absurd hr hn
  · have hiff (d : Command) : Performs i d ↔ c = d := ⟨hc.unique, fun e => e ▸ hc⟩
    simp [hiff, commandEffect_busy_iff c hr.2]
  · simp [hn, hr.2]
  · simp [hn, hr.2]

/-! ### BITLEN (R28, R108, R111) -/

theorem appendBytes_bitlen (bs : List Byte) (s : State) : (s.appendBytes bs).bitlen = s.bitlen := by
  simp [appendBytes_frame]

theorem commandEffect_bitlen_cases (c : Command) (s : State) :
    (commandEffect c s).bitlen = s.bitlen ∨ (c = .init ∧ (commandEffect c s).bitlen = 0) ∨
      (s.phase = .absorb ∧ ∃ cnt, c = .absorb cnt ∧
        (commandEffect c s).bitlen = s.bitlen + 8 * BitVec.ofNat 64 (cnt.toNat + 1)) := by
  obtain ⟨rfl, e⟩ | ⟨hp, cnt, rfl, e⟩ | ⟨-, -, e⟩ | ⟨-, err, code, e⟩ := commandEffect_cases c s <;> rw [e]
  · exact .inr (.inl ⟨rfl, rfl⟩)
  · exact .inr (.inr ⟨hp, cnt, rfl, rfl⟩)
  · exact .inl (appendBytes_bitlen _ s)
  · exact .inl rfl

/-- Settles O27: ABSORB counts without looking at ERR, and only a command writes BITLEN. -/
theorem bitLengthWrapsWithoutError : Obligations.BitLengthWrapsWithoutError := by
  refine ⟨fun s hr hp hl => ⟨_, exec_command_of_ready (.absorb 0) hr, ?_⟩, fun i s t h => ?_⟩
  · rw [commandEffect, absorbEffect_eq 0 s hp]
    simp [appendBytes_frame, hl]
  · simp only [← performs_init_iff, ← performs_absorb_iff]
    obtain ⟨-, rfl⟩ | ⟨-, c, hc, rfl⟩ | ⟨-, v, -, rfl⟩ | ⟨-, r, rfl⟩ := exec_next_performs h
    · exact .inl rfl
    · obtain e | ⟨rfl, e⟩ | ⟨hp, cnt, rfl, e⟩ := commandEffect_bitlen_cases c s
      · exact .inl e
      · exact .inr (.inl ⟨hc, e⟩)
      · exact .inr (.inr ⟨hp, cnt, hc, e⟩)
    · exact .inl rfl
    · exact .inl rfl

/-! ### DATA (R30) -/

/-- Commands leave DATA (`commandEffect_frame`), so only WR DATA loads it. -/
theorem exec_data_cases (h : exec i s = .next t) : t.data = s.data ∨ ∃ v, i = .wrData v ∧ t.data = v := by
  obtain ⟨-, rfl⟩ | ⟨-, c, -, rfl⟩ | ⟨-, v, rfl, rfl⟩ | ⟨-, r, rfl⟩ := exec_next_performs h
  · exact .inl rfl
  · obtain ⟨hdata, -⟩ := commandEffect_frame c s
    exact .inl hdata
  · exact .inr ⟨v, rfl, rfl⟩
  · exact .inl rfl

/-- Settles O29: of the turns only the host's and the assertion of reset write DATA. -/
theorem onlyWrDataChangesData : Obligations.OnlyWrDataChangesData := by
  intro s t h
  obtain ⟨hturn, i, hf, he⟩ | ⟨-, -, rfl⟩ | ⟨-, rfl⟩ | ⟨hturn, -⟩ | ⟨-, rfl⟩ := step_cases h
  · obtain e | ⟨v, rfl, e⟩ := exec_data_cases he
    · exact .inl (e.trans s.nextTurn_data)
    · exact .inr (.inr ⟨hturn, v, hf, e⟩)
  · exact .inl s.nextTurn_data
  · exact .inl (by simp)
  · exact .inr (.inl hturn)
  · exact .inl (by simp)

/-! ### PHASE (R31) -/

theorem appendBytes_phase (bs : List Byte) (s : State) : (s.appendBytes bs).phase = s.phase := by
  simp [appendBytes_frame]

theorem commandEffect_phase_cases (c : Command) (s : State) :
    (commandEffect c s).phase = s.phase ∨ (c = .init ∧ (commandEffect c s).phase = .absorb) ∨
      (c = .final ∧ s.phase = .absorb ∧ (commandEffect c s).phase = .done) := by
  obtain ⟨rfl, e⟩ | ⟨-, cnt, -, e⟩ | ⟨hp, rfl, e⟩ | ⟨-, err, code, e⟩ := commandEffect_cases c s <;> rw [e]
  · exact .inr (.inl ⟨rfl, rfl⟩)
  · exact .inl (appendBytes_phase _ s)
  · exact .inr (.inr ⟨rfl, hp, rfl⟩)
  · exact .inl rfl

theorem exec_phase_cases (h : exec i s = .next t) :
    t.phase = s.phase ∨ (Performs i .init ∧ t.phase = .absorb) ∨
      (Performs i .final ∧ s.phase = .absorb ∧ t.phase = .done) := by
  obtain ⟨-, rfl⟩ | ⟨-, c, hc, rfl⟩ | ⟨-, v, -, rfl⟩ | ⟨-, r, rfl⟩ := exec_next_performs h
  · exact .inl rfl
  · obtain e | ⟨rfl, e⟩ | ⟨rfl, hp, e⟩ := commandEffect_phase_cases c s
    · exact .inl e
    · exact .inr (.inl ⟨hc, e⟩)
    · exact .inr (.inr ⟨hc, hp, e⟩)
  · exact .inl rfl
  · exact .inl rfl

theorem step_phase_cases (h : step s = .next t) :
    t.phase = s.phase ∨ (s.nextTurn.1 = .resetOn ∧ t.phase = .idle) ∨
      (s.nextTurn.1 = .host ∧ ∃ i, s.nextTurn.2.fetch = some i ∧
        ((Performs i .init ∧ t.phase = .absorb) ∨ (Performs i .final ∧ s.phase = .absorb ∧ t.phase = .done))) := by
  obtain ⟨hturn, i, hf, he⟩ | ⟨-, -, rfl⟩ | ⟨-, rfl⟩ | ⟨hturn, rfl⟩ | ⟨-, rfl⟩ := step_cases h
  · rw [← s.nextTurn_phase]
    exact (exec_phase_cases he).imp_right fun moved => .inr ⟨hturn, i, hf, moved⟩
  · exact .inl s.nextTurn_phase
  · exact .inl (by simp)
  · exact .inr (.inl ⟨hturn, rfl⟩)
  · exact .inl (by simp)

/-- Settles O48: `step_phase_cases` says how PHASE moves, and INIT and FINAL do move it. -/
theorem phaseMovesOnlyByInitFinalReset : Obligations.PhaseMovesOnlyByInitFinalReset := by
  refine ⟨fun s t h => ?_, fun s hr => ?_, fun s hr hp => ?_, rfl, rfl, rfl, fun p => ?_, rfl⟩
  · obtain e | hreset | ⟨hturn, i, hf, ⟨hi, e⟩ | ⟨hi, hp, e⟩⟩ := step_phase_cases h
    · exact .inl e
    · exact .inr (.inl hreset)
    · exact .inr (.inr (.inl ⟨hturn, by simpa [hf] using performs_init_iff.mp hi, e⟩))
    · exact .inr (.inr (.inr ⟨hturn, by simpa [hf] using performs_final_iff.mp hi, hp, e⟩))
  · exact ⟨_, exec_command_of_ready .init hr, rfl⟩
  · exact ⟨_, exec_command_of_ready .final hr, by simp [commandEffect, finalEffect_eq s hp]⟩
  · cases p <;> decide

/-! ### The statements of a host program (R76 to R78) -/

/-- A misaligned access is a BusError (R57). -/
theorem decode_access_misaligned (dir : Dir) {off : Offset} (h : off.toNat % 4 ≠ 0) (width : Width) (v : Word) :
    decode (.access (accessWord dir off) width v) = .busError dir off width v := by
  rw [decode_access, if_pos (.inl (mt (offset_aligned_iff off).mp h))]

/-- An aligned write to another offset than those of CMD and DATA is ignored (R200). -/
theorem decode_writeAccess_ignored {off : Offset} (h : off.toNat % 4 = 0) (hcmd : off ≠ 0x00) (hdata : off ≠ 0x08)
    (v : Word) : decode (writeAccess off v) = .wrIgnored off v := by
  have aligned : ¬ (off.extractLsb' 0 2 ≠ 0#2 ∨ Width.w32 ≠ .w32) := by simp [(offset_aligned_iff off).mpr h]
  rw [writeAccess, decode_access, if_neg aligned]
  exact (if_neg hcmd).trans (if_neg hdata)

theorem decode_readAccess_acc (n : BitVec 2) : decode (readAccess ((0b10#2 ++ n) ++ 0b00#2)) = .rdAcc n := by
  revert n; decide

theorem decode_readAccess_reserved : ∀ off ∈ reservedOffsets, decode (readAccess off) = .rdReserved off := by
  decide

theorem absorbWord_eq_cmdw (n1 : BitVec 2) : absorbWord n1 = cmdw 2 0 n1 0 := by
  revert n1; decide

theorem statusBusy_eq_false_iff (v : Word) : statusBusy v = false ↔ v.extractLsb' 0 1 = 0 := by
  rw [statusBusy, BitVec.eq_of_getElem_eq_iff]
  simp

/-- Only `wait` is carried out again, and it ends at a read of STATUS with BUSY = 0 (R78). -/
theorem repeats_eq_false_iff (st : Stmt) (r : Option Response) :
    st.repeats r = false ↔ st ≠ .wait ∨ ∃ v : Word, r = some (.value v) ∧ v.extractLsb' 0 1 = 0 := by
  by_cases hw : st = .wait
  · subst hw
    match r with
    | some (.value v) => simp [Stmt.repeats, statusBusy_eq_false_iff]
    | some .written => simp [Stmt.repeats]
    | some (.fault f) => simp [Stmt.repeats]
    | none => simp [Stmt.repeats]
  · simp [Stmt.repeats_of_ne_wait hw, hw]

/-- Settles O6: a statement's accesses are decoded one by one. -/
theorem statementsAssembleToTheirAccesses : Obligations.StatementsAssembleToTheirAccesses := by
  refine ⟨fun n1 => ⟨?_, (decodeCommand_eq_absorb_iff _ n1).mpr rfl⟩, rfl, rfl, rfl, rfl, fun w => rfl, fun reg v => ?_,
    fun reg => ?_, fun v => ⟨rfl, rfl⟩, fun off v ha hcmd hdata => ?_, fun off v ha => ⟨?_, ?_⟩, rfl, rfl, rfl, rfl, rfl,
    fun n => ?_, fun off hoff => ?_, fun v => rfl, fun b => rfl, rfl, rfl, repeats_eq_false_iff⟩
  · rw [← absorbWord_eq_cmdw]; rfl
  · cases reg <;> rfl
  · cases reg <;> rfl
  · exact congrArg (fun i => [i]) (decode_writeAccess_ignored ha hcmd hdata v)
  · exact congrArg (fun i => [i]) (decode_access_misaligned .write ha .w32 v)
  · exact congrArg (fun i => [i]) (decode_access_misaligned .read ha .w32 0)
  · exact congrArg (fun i => [i]) (decode_readAccess_acc n)
  · exact congrArg (fun i => [i]) (decode_readAccess_reserved off hoff)

/-! ### What the reads answer (R34, R36, R194, R197, R198) -/

/-- Each field of STATUS stands above those to its right (R36). -/
theorem statusWord_fields (s : State) :
    s.statusWord.extractLsb' 0 1 = BitVec.ofBool s.busy ∧ s.statusWord.extractLsb' 1 2 = s.phase.code ∧
    s.statusWord.extractLsb' 3 1 = BitVec.ofBool s.err ∧ s.statusWord.extractLsb' 4 4 = s.errcode.code ∧
    s.statusWord.extractLsb' 8 6 = s.fill ∧ s.statusWord.extractLsb' 14 18 = 0 := by
  have lowest {m n : Nat} {x : BitVec m} {y : BitVec n} : (x ++ y).extractLsb' 0 n = y :=
    BitVec.extractLsb'_append_eq_right
  unfold State.statusWord
  simp (disch := decide) only [BitVec.extractLsb'_append_eq_of_le]
  exact ⟨lowest, lowest, lowest, lowest, lowest, rfl⟩

/-- Settles O32: the word answered is `statusWord`, and the codes of its fields are those of the rule. -/
theorem rdStatusReturnsTheFields : Obligations.RdStatusReturnsTheFields := by
  refine ⟨fun v => rfl, fun s hr => ⟨s.statusWord, ?_, ?_⟩, rfl⟩
  · rw [exec_rdStatus, whenReleased_of_released _ hr]; rfl
  · obtain ⟨hbusy, hphase, herr, hcode, hfill, hzero⟩ := statusWord_fields s
    refine ⟨hbusy, hphase.trans ?_, herr, hcode.trans ?_, hfill, hzero⟩
    · cases s.phase <;> rfl
    · cases s.errcode <;> rfl

/-- Settles O34: LEN_HI and LEN_LO are BITLEN cut in two. -/
theorem rdLenReturnsTheHalvesOfBitlen : Obligations.RdLenReturnsTheHalvesOfBitlen := by
  refine ⟨fun v => ⟨rfl, rfl⟩, fun s hr => ⟨lenLo s.bitlen, lenHi s.bitlen, ?_, ?_, ?_⟩, fun s hb => ⟨?_, ?_⟩⟩
  · rw [exec_rdLenLo, whenReady_of_ready _ hr]; rfl
  · rw [exec_rdLenHi, whenReady_of_ready _ hr]; rfl
  · rw [lenHi, lenLo, BitVec.extractLsb'_append_extractLsb'_eq_extractLsb' (by rfl)]; simp
  · rw [exec_rdLenLo, whenReady_of_busy _ hb]
  · rw [exec_rdLenHi, whenReady_of_busy _ hb]

theorem accResponse_of_idle (n : BitVec 2) (hp : s.phase = .idle) : accResponse s n = .fault .accHasNoValue := by
  simp [accResponse, State.acc?, hp]

/-- Settles O36: in PHASE = IDLE ACC has no value to answer with. -/
theorem rdAccBeforeInitHasNoValue : Obligations.RdAccBeforeInitHasNoValue := by
  intro n s hr hp
  rw [exec_rdAcc, whenReady_of_ready _ hr, accResponse_of_idle n hp]; rfl

end Sys2Proof.Machine
end

section
/-! The statements of the accesses and their order (20_memory.md): what an access can do at the port, that every
interleaving of host and engine gives the atomic result (a step without a reset keeps the result still to come and takes
away some of the work left), that BUF stands still while the engine runs, and how words, digest and windows lie. -/

namespace Sys2Proof.Machine

variable {s t : State} {i : Instr} {c : Command} {x : Config.Turn}

/-! ### What an access does at the port (R59, R255) -/

/-- An access is held, and nothing changes; or it leaves the port with a response, whatever it does to the block. -/
theorem exec_held_or_answered (h : exec i s = .next t) :
    (t = s ∧ (s.resetIn = true ∨ s.busy = true)) ∨
    (t.port = s.port.tail ∧ t.response.isSome ∧ t.turns = s.turns ∧ t.resetIn = s.resetIn) := by
  obtain held | ⟨-, c, -, rfl⟩ | ⟨-, v, -, rfl⟩ | ⟨-, -, -, -, r, rfl⟩ := exec_next_cases h
  · exact .inl held
  · obtain ⟨-, hreset, hport, -, hturns⟩ := commandEffect_frame c s
    exact .inr ⟨congrArg List.tail hport, rfl, hturns, hreset⟩
  · exact .inr ⟨rfl, rfl, rfl, rfl⟩
  · exact .inr ⟨rfl, rfl, rfl, rfl⟩

/-- The oldest access is the one fetched. -/
theorem fetch_eq_some_iff : s.fetch = some i ↔ ∃ op rest, s.port = op :: rest ∧ decode op = i := by
  cases hp : s.port <;> simp [State.fetch, hp]

theorem fetch_eq_none_iff : s.fetch = none ↔ s.port = [] := by
  simp [State.fetch]

/-! ### Commands and accesses performed atomically (R107 to R109, R258) -/

theorem State.Inv.settle_of_not_busy (hi : s.Inv) (hb : s.busy = false) : s.settle = s :=
  settle_of_rest (hi.busy_iff ▸ hb)

/-- Where the engine comes to rest after bytes appended to a block at rest, whether they complete it or not. The phase
and BITLEN may be set beside them, as ABSORB and FINAL do. -/
theorem settle_appendBytes_arch (bs : List Byte) (ph : Phase) (n : BitVec 64) (hi : s.Inv) (hb : s.busy = false)
    (hle : s.fill.toNat + bs.length ≤ 128) :
    (State.settle { s.appendBytes bs with phase := ph, bitlen := n }).arch =
      { bs.foldl Arch.appendByte s.arch with phase := ph, bitlen := n } := by
  obtain ⟨heng, hpend, -⟩ := hi.at_rest hb
  by_cases hfull : 64 ≤ s.fill.toNat + bs.length
  · exact settle_appendBytes_of_full s bs ph n hb hpend hfull hle
  · have hroom : s.fill.toNat + bs.length < 64 := by omega
    have rest : State.engineActive { s.appendBytes bs with phase := ph, bitlen := n } = false := by
      rw [appendBytes_of_room bs s hb hroom]
      exact engineActive_eq_false.mpr ⟨heng, hpend⟩
    rw [settle_of_rest rest, appendBytes_of_room bs s hb hroom, arch_appendBytes_of_room bs s.arch hroom]
    rfl

theorem absorbEffect_settle_arch (cnt : BitVec 2) (hi : s.Inv) (hb : s.busy = false) (hp : s.phase = .absorb) :
    (absorbEffect cnt s).settle.arch = s.arch.absorb cnt := by
  have hle : s.fill.toNat + (absorbBytes s.data cnt).length ≤ 128 := by rw [absorbBytes_length]; omega
  obtain ⟨-, -, -, hphase, -⟩ := arch_appendBytes_frame (absorbBytes s.arch.data cnt) s.arch
  rw [absorbEffect_eq cnt s hp, arch_absorb_eq cnt s.arch hp]
  refine (settle_appendBytes_arch _ (s.appendBytes (absorbBytes s.data cnt)).phase _ hi hb hle).trans ?_
  simp only [appendBytes_phase, hphase]
  rfl

theorem finalEffect_settle_arch (hi : s.Inv) (hb : s.busy = false) (hp : s.phase = .absorb) :
    (finalEffect s).settle.arch = s.arch.final := by
  have hlen := finalBytes_length s.fill s.bitlen
  have hle : s.fill.toNat + (finalBytes s.fill s.bitlen).length ≤ 128 := by split at hlen <;> omega
  obtain ⟨-, hbitlen, -⟩ := arch_appendBytes_frame (finalBytes s.arch.fill s.arch.bitlen) s.arch
  rw [finalEffect_eq s hp, arch_final_eq s.arch hp]
  refine (settle_appendBytes_arch _ .done (s.appendBytes (finalBytes s.fill s.bitlen)).bitlen hi hb hle).trans ?_
  simp only [appendBytes_bitlen, hbitlen]
  rfl

theorem signalError_arch (s : State) (code : ErrCode) : (s.signalError code).arch = s.arch.signalError code := by
  unfold State.signalError Arch.signalError
  cases he : s.err <;> simp [State.arch, he]

/-- Where the engine comes to rest after a command that a ready block accepts: where the command as one atomic
operation leads. -/
theorem commandEffect_settle_arch (c : Command) (hi : s.Inv) (hr : s.Ready) :
    (commandEffect c s).settle.arch = s.arch.command c := by
  have rest : s.engineActive = false := hi.busy_iff ▸ hr.2
  have records (code : ErrCode) : (s.signalError code).settle.arch = s.arch.signalError code := by
    rw [settle_of_rest (by simpa [State.engineActive] using rest), signalError_arch]
  cases c with
  | nop => exact congrArg State.arch (settle_of_rest rest)
  | init => exact congrArg State.arch (settle_of_rest (s := initEffect s) rest)
  | clrerr => exact congrArg State.arch (settle_of_rest (s := s.clearError) rest)
  | illegal w => exact records .illegal
  | absorb cnt =>
    by_cases hp : s.phase = .absorb
    · exact absorbEffect_settle_arch cnt hi hr.2 hp
    · rw [commandEffect, absorbEffect, if_neg hp]
      exact (records .badPhase).trans (if_neg hp).symm
  | final =>
    by_cases hp : s.phase = .absorb
    · exact finalEffect_settle_arch hi hr.2 hp
    · rw [commandEffect, finalEffect, if_neg hp]
      exact (records .badPhase).trans (if_neg hp).symm

theorem arch_access_of_performs (a : Arch) (h : Performs i c) : a.access i = a.command c := by
  obtain rfl | ⟨w, rfl, rfl⟩ := h
  · cases c <;> rfl
  · rfl

theorem arch_access_of_answer (a : Arch) (hcmd : ∀ c : Command, i ≠ c.toInstr) (hwr : ∀ w, i ≠ .wrCmd w)
    (hdata : ∀ v, i ≠ .wrData v) : a.access i = a := by
  obtain ⟨c, rfl⟩ | ⟨w, rfl⟩ | ⟨v, rfl⟩ | held | atOnce := instr_kinds i
  · exact absurd rfl (hcmd c)
  · exact absurd rfl (hwr w)
  · exact absurd rfl (hdata v)
  · obtain ⟨off, v, rfl⟩ | rfl | rfl | rfl | rfl | ⟨n, rfl⟩ | ⟨off, rfl⟩ := held <;> rfl
  · obtain rfl | ⟨dir, off, width, v, rfl⟩ := atOnce <;> rfl

/-- An access that is not held brings the block, once its engine rests, to where the access as one atomic operation
leads from where the engine would have come to rest without it. -/
theorem exec_held_or_atomic (hi : s.Inv) (h : exec i s = .next t) :
    (t = s ∧ (s.resetIn = true ∨ s.busy = true)) ∨ t.settle.arch = s.settle.arch.access i := by
  obtain held | ⟨hr, c, hc, rfl⟩ | ⟨hr, v, rfl, rfl⟩ | ⟨-, hcmd, hwr, hdata, r, rfl⟩ := exec_next_cases h
  · exact .inl held
  · rw [settle_complete_arch, commandEffect_settle_arch c hi hr, hi.settle_of_not_busy hr.2,
      arch_access_of_performs _ hc]
    exact .inr rfl
  · rw [settle_complete_arch, (hi.setData v).settle_of_not_busy hr.2, hi.settle_of_not_busy hr.2]
    exact .inr rfl
  · rw [settle_complete_arch, arch_access_of_answer _ hcmd hwr hdata]
    exact .inr rfl

/-! ### Runs under a schedule without a reset (R59, R61, R148) -/

/-- A state from which a schedule without a reset runs. -/
structure State.Running (s : State) : Prop where
  inv : s.Inv
  released : s.resetIn = false
  schedule : noReset s.turns = true

/-- The result still to come: the waiting accesses performed atomically in order, from where the engine comes to rest. -/
def State.result (s : State) : Arch := (s.port.map decode).foldl Arch.access s.settle.arch

/-- A bound on the steps a run still needs: its scheduled turns, for each waiting access the step that performs it and
the at most 162 transitions it gives the engine, and the transitions that remain. -/
def workLeft (s : State) : Nat := s.turns.length + 163 * s.port.length + remaining s

/-- What a turn of the host or the engine does: it finds nothing to do or its access held, it performs the oldest access
atomically, or the engine moves. -/
theorem runTurn_running_cases (hs : s.Running) (hx : x = .host ∨ x = .engine) (h : runTurn x s = .next t) :
    (x = .host ∧ t = s ∧ (s.port = [] ∨ s.busy = true)) ∨
    (x = .host ∧ ∃ op, s.port = op :: t.port ∧ t.turns = s.turns ∧ t.resetIn = s.resetIn ∧ t.Inv ∧
      t.settle.arch = s.settle.arch.access (decode op)) ∨
    (x = .engine ∧ t = s.engineTransition) := by
  obtain ⟨rfl, i, hf, he⟩ | ⟨rfl, hf, rfl⟩ | engine | ⟨rfl, -⟩ | ⟨rfl, -⟩ := runTurn_cases h
  · obtain ⟨op, rest, hport, rfl⟩ := fetch_eq_some_iff.mp hf
    obtain ⟨rfl, hheld⟩ | ⟨hleft, -, hturns, hreset⟩ := exec_held_or_answered he
    · exact .inl ⟨rfl, rfl, .inr (by simpa [hs.released] using hheld)⟩
    obtain ⟨rfl, hheld⟩ | hatomic := exec_held_or_atomic hs.inv he
    · exact .inl ⟨rfl, rfl, .inr (by simpa [hs.released] using hheld)⟩
    · rw [hport, List.tail_cons] at hleft
      exact .inr (.inl ⟨rfl, op, hleft ▸ hport, hturns, hreset, hs.inv.exec he, hatomic⟩)
  · exact .inl ⟨rfl, rfl, .inl (fetch_eq_none_iff.mp hf)⟩
  · exact .inr (.inr engine)
  · simp at hx
  · simp at hx

/-- The response and the schedule make no difference to the result to come. -/
theorem result_surround (s : State) (r : Option Response) (ts : List Config.Turn) :
    (s.surround s.port r ts).result = s.result := by
  rw [State.result, settle_surround, surround_arch, surround_port, State.result]

theorem nextTurn_eq_surround (s : State) : s.nextTurn.2 = s.surround s.port s.response s.nextTurn.2.turns := by
  unfold State.nextTurn
  split <;> rfl

/-- The turn taken from the schedule is the host's or the engine's, and the run goes on to the same result. -/
theorem State.Running.nextTurn (hs : s.Running) :
    (s.nextTurn.1 = .host ∨ s.nextTurn.1 = .engine) ∧ s.nextTurn.2.Running ∧ s.nextTurn.2.result = s.result := by
  have hschedule := hs.schedule
  have hturn : (s.nextTurn.1 = .host ∨ s.nextTurn.1 = .engine) ∧ noReset s.nextTurn.2.turns = true := by
    cases hturns : s.turns with
    | cons x ts => simpa [nextTurn_of_cons hturns, noReset, hturns] using hschedule
    | nil => cases ha : s.engineActive <;> simp [State.nextTurn, hturns, ha, noReset]
  refine ⟨hturn.1, ⟨hs.inv.nextTurn, s.nextTurn_resetIn.trans hs.released, hturn.2⟩, ?_⟩
  rw [nextTurn_eq_surround, result_surround]

/-- Every step of a run goes on to the same result. -/
theorem running_step (hs : s.Running) (h : step s = .next t) : t.Running ∧ t.result = s.result := by
  obtain ⟨hx, hn, hresult⟩ := hs.nextTurn
  rw [← hresult]
  obtain ⟨-, ht, -⟩ | ⟨-, op, hport, hturns, hreset, hi, harch⟩ | ⟨-, rfl⟩ := runTurn_running_cases hn hx h
  · exact ht.symm ▸ ⟨hn, rfl⟩
  · refine ⟨⟨hi, hreset.trans hn.released, hturns ▸ hn.schedule⟩, ?_⟩
    rw [State.result, State.result, hport, harch, List.map_cons, List.foldl_cons]
  · refine ⟨⟨hn.inv.engineTransition, by simpa using hs.released, by simpa using hn.schedule⟩, ?_⟩
    rw [State.result, State.result, settle_engineTransition hn.inv, State.engineTransition_port]

/-- A turn takes away some of the work left, or changes nothing: the host has no access or its access is held, or the
engine is at rest. -/
theorem runTurn_workLeft_lt (hs : s.Running) (hx : x = .host ∨ x = .engine) (h : runTurn x s = .next t) :
    workLeft t < workLeft s ∨
    (t = s ∧ ((x = .host ∧ (s.port = [] ∨ s.busy = true)) ∨ (x = .engine ∧ s.engineActive = false))) := by
  obtain ⟨hhost, ht, hidle⟩ | ⟨-, op, hport, hturns, -, hi, -⟩ | ⟨hengine, rfl⟩ := runTurn_running_cases hs hx h
  · exact .inr ⟨ht, .inl ⟨hhost, hidle⟩⟩
  · have := remaining_le hi
    refine .inl ?_
    simp only [workLeft, hport, hturns, List.length_cons]
    omega
  · cases ha : s.engineActive with
    | true =>
      have := remaining_engineTransition hs.inv ha
      refine .inl ?_
      simp only [workLeft, State.engineTransition_turns, State.engineTransition_port]
      omega
    | false => exact .inr ⟨engineTransition_of_rest ha, .inr ⟨hengine, rfl⟩⟩

/-- Every step takes away some of the work left, until nothing is scheduled, nothing waits and the engine rests. -/
theorem step_workLeft_lt (hs : s.Running) (h : step s = .next t)
    (hwork : ¬ (s.port = [] ∧ s.turns = [] ∧ s.busy = false)) : workLeft t < workLeft s := by
  obtain ⟨hx, hn, -⟩ := hs.nextTurn
  have hlt := runTurn_workLeft_lt hn hx h
  cases hturns : s.turns with
  | cons x ts =>
    have taken : workLeft s.nextTurn.2 + 1 = workLeft s := by
      simp only [nextTurn_of_cons hturns, workLeft, remaining, hturns, List.length_cons]
      omega
    obtain hlt | ⟨rfl, -⟩ := hlt <;> omega
  | nil =>
    cases ha : s.engineActive with
    | true =>
      rw [nextTurn_of_active hturns ha] at hlt
      simpa [ha] using hlt
    | false =>
      rw [nextTurn_of_rest hturns ha] at hlt
      have hb : s.busy = false := hs.inv.busy_iff.trans ha
      have hport : s.port ≠ [] := fun e => hwork ⟨e, hturns, hb⟩
      simpa [hport, hb] using hlt

/-- Every run under a schedule without a reset comes to rest with every access performed, at the result that was to
come: `step_workLeft_lt` bounds its steps. -/
theorem running_comes_to_rest (hs : s.Running) : ∃ n t, runSteps n s = .next t ∧ t.Running ∧
    t.port = [] ∧ t.turns = [] ∧ t.busy = false ∧ t.arch = s.result := by
  induction hw : workLeft s using Nat.strong_induction_on generalizing s with
  | _ w ih =>
    by_cases hrest : s.port = [] ∧ s.turns = [] ∧ s.busy = false
    · obtain ⟨hport, hturns, hb⟩ := hrest
      refine ⟨0, s, rfl, hs, hport, hturns, hb, ?_⟩
      rw [State.result, hport, hs.inv.settle_of_not_busy hb]
      rfl
    · obtain ⟨u, hu⟩ := runTurn_next s.nextTurn.1 s.nextTurn.2
      obtain ⟨hrun, hresult⟩ := running_step hs hu
      obtain ⟨n, t, hn, ht⟩ := ih _ (hw ▸ step_workLeft_lt hs hu hrest) hrun rfl
      exact ⟨n + 1, t, (runSteps_succ_iff n s t).mpr ⟨u, hu, hn⟩, hresult ▸ ht⟩

/-- Settles O53: every step keeps the result to come, and no run goes on for ever. -/
theorem everyScheduleGivesTheAtomicResult : Obligations.EveryScheduleGivesTheAtomicResult := by
  intro s turns hi hr hn
  obtain ⟨n, t, hrun, -, hport, hturns, hb, harch⟩ :=
    running_comes_to_rest (s := s.surround s.port s.response turns) ⟨hi.setSchedule s.port turns, hr, hn⟩
  exact ⟨n, t, hrun, hport, hturns, hb, harch.trans (result_surround s s.response turns)⟩

/-! ### The port and the step (R59, R190, R255, R258) -/

/-- Settles O9: only the host's turn executes an access, which is held or answered. -/
theorem accessesLeaveThePortInOrder : Obligations.AccessesLeaveThePortInOrder := by
  intro s t h
  obtain ⟨hturn, i, -, he⟩ | ⟨-, -, rfl⟩ | ⟨-, rfl⟩ | ⟨-, rfl⟩ | ⟨-, rfl⟩ := step_cases h
  · obtain ⟨rfl, -⟩ | ⟨hport, hresponse, -, -⟩ := exec_held_or_answered he
    · exact .inl ⟨s.nextTurn_port, s.nextTurn_response⟩
    · exact .inr ⟨hturn, hport.trans (congrArg List.tail s.nextTurn_port), hresponse⟩
  · exact .inl ⟨s.nextTurn_port, s.nextTurn_response⟩
  · exact .inl (by simp)
  · exact .inl ⟨s.nextTurn_port, s.nextTurn_response⟩
  · exact .inl (by simp)

/-- On the host's turn a step executes the oldest access. -/
theorem step_of_host {op : HostOp} {rest : List HostOp} (hp : s.port = op :: rest) (hn : s.nextTurn = (.host, t)) :
    step s = exec (decode op) t := by
  have hport : t.port = op :: rest := by rw [← hp, ← s.nextTurn_port, hn]
  rw [step, hn, runTurn]
  simp only [fetch_of_cons hport]

theorem withFetchWord_of_ok {nbits w : Nat} {op : HostOp} (h : HostOp.ofTableWord nbits w = .ok op) :
    s.withFetchWord nbits w = s.place op := by
  rw [State.withFetchWord, h]

/-- Settles O7: in each case the next turn is the host's. -/
theorem stepExecutesTheDecodedAccess : Obligations.StepExecutesTheDecodedAccess := by
  refine ⟨fun s op rest ts hp ht => ?_, fun s op rest hp ht he hpend => ?_, fun s nbits w op h => ?_⟩
  · exact step_of_host hp (nextTurn_of_cons ht)
  · exact step_of_host hp (nextTurn_of_rest ht (engineActive_eq_false.mpr ⟨he, hpend⟩))
  · rw [withFetchWord_of_ok h]
    exact step_of_host (s.place_port op) (nextTurn_of_cons (s.place_turns op))

/-! ### The reads (R58, R175, R194) -/

/-- A read of an aligned 32-bit register or of a reserved offset (R76). -/
def IsRead (i : Instr) : Prop :=
  i = .rdCmd ∨ i = .rdStatus ∨ i = .rdData ∨ i = .rdLenLo ∨ i = .rdLenHi ∨ (∃ n, i = .rdAcc n) ∨
    ∃ off, i = .rdReserved off

/-- A read is held, or it answers from the block alone, which its own answer leaves as it is. -/
theorem exec_read (hi : IsRead i) : ∃ answer : State → Response, (∀ s r, answer (s.complete r) = answer s) ∧
    ∀ {s t}, exec i s = .next t → (¬ s.Ready ∧ t = s) ∨ t = s.complete (answer s) := by
  have answers : ∃ answer : State → Response, (∀ s r, answer (s.complete r) = answer s) ∧
      ((∀ s, exec i s = whenReady s fun s => s.complete (answer s)) ∨
        ∀ s, exec i s = whenReleased s fun s => s.complete (answer s)) := by
    obtain rfl | rfl | rfl | rfl | rfl | ⟨n, rfl⟩ | ⟨off, rfl⟩ := hi
    · exact ⟨_, fun _ _ => rfl, .inl exec_rdCmd⟩
    · exact ⟨_, fun _ _ => rfl, .inr exec_rdStatus⟩
    · exact ⟨_, fun _ _ => rfl, .inl exec_rdData⟩
    · exact ⟨_, fun _ _ => rfl, .inl exec_rdLenLo⟩
    · exact ⟨_, fun _ _ => rfl, .inl exec_rdLenHi⟩
    · exact ⟨_, fun _ _ => rfl, .inl (exec_rdAcc n)⟩
    · exact ⟨_, fun _ _ => rfl, .inl (exec_rdReserved off)⟩
  obtain ⟨answer, hanswer, hexec | hexec⟩ := answers <;> refine ⟨answer, hanswer, fun h => ?_⟩
  · rw [hexec, whenReady_next_iff] at h
    exact h.symm.imp_right fun ⟨_, ht⟩ => ht
  · rw [hexec, whenReleased_next_iff] at h
    exact h.symm.imp (fun ⟨hreset, ht⟩ => ⟨fun ready => by simp [ready.1] at hreset, ht⟩) fun ⟨_, ht⟩ => ht

/-- Settles O38: a read answers from what it does not change. -/
theorem readsHaveNoSideEffects : Obligations.ReadsHaveNoSideEffects := by
  intro i hi s t u hst htu
  obtain ⟨answer, hanswer, hread⟩ := exec_read hi
  obtain ⟨hheld, rfl⟩ | rfl := hread hst
  · exact ⟨rfl, fun ready => absurd ready hheld⟩
  · refine ⟨rfl, fun ready => ?_⟩
    obtain ⟨hheld, -⟩ | rfl := hread htu
    · exact absurd ready hheld
    · simp [hanswer]

/-! ### The words of the block and the digest (R52, R54, R130) -/

/-- Byte j of X[k], the least significant first. -/
theorem blockWord_lane (buf : Vector Byte 64) (k : Fin 16) (j : Nat) (h : j < 4) :
    (blockWord buf k).extractLsb' (8 * j) 8 = buf[4 * k.val + j] := by
  have lowest {m : Nat} {v : BitVec m} {b : Byte} : (v ++ b).extractLsb' 0 8 = b := BitVec.extractLsb'_append_eq_right
  unfold blockWord
  match j, h with
  | 0, _ => exact lowest
  | 1, _ => simp (disch := decide) only [BitVec.extractLsb'_append_eq_of_le]; exact lowest
  | 2, _ => simp (disch := decide) only [BitVec.extractLsb'_append_eq_of_le]; exact lowest
  | 3, _ => simp (disch := decide) only [BitVec.extractLsb'_append_eq_of_le]; exact BitVec.extractLsb'_eq_self

/-- The transitions of a block in progress read BUF and do not write it (R130). -/
theorem engineTransition_buf (he : s.eng ≠ .idle) : s.engineTransition.buf = s.buf := by
  cases heng : s.eng with
  | idle => exact absurd heng he
  | run => rw [engineTransition_of_run heng, s.runStep_buf]
  | ff => rw [engineTransition_of_ff heng, s.finishBlock_buf]

/-- While BUSY = 1 an instruction is held or only answers (R255). -/
theorem exec_of_busy (hb : s.busy = true) (h : exec i s = .next t) : t = s ∨ ∃ r, t = s.complete r := by
  have notReady : ¬ s.Ready := fun ready => by simp [ready.2] at hb
  obtain ⟨ht, -⟩ | ⟨ready, -⟩ | ⟨ready, -⟩ | ⟨-, -, -, -, hr⟩ := exec_next_cases h
  · exact .inl ht
  · exact absurd ready notReady
  · exact absurd ready notReady
  · exact .inr hr

theorem State.Inv.busy_of_eng (hi : s.Inv) (he : s.eng ≠ .idle) : s.busy = true := by
  simp [hi.busy_iff, State.engineActive, he]

/-- Settles O42: BUSY = 1 while a block is in progress, so no access writes BUF, and the engine's transitions do not. -/
theorem blockWordsAreLittleEndian : Obligations.BlockWordsAreLittleEndian := by
  refine ⟨blockWord_lane, fun s => engineTransition_buf, fun s t hi he hreset h => ?_⟩
  obtain ⟨-, i, -, hexec⟩ | ⟨-, -, rfl⟩ | ⟨-, rfl⟩ | ⟨hturn, -⟩ | ⟨-, rfl⟩ := step_cases h
  · have hb : s.nextTurn.2.busy = true := s.nextTurn_busy.trans (hi.busy_of_eng he)
    obtain rfl | ⟨r, rfl⟩ := exec_of_busy hb hexec
    · exact s.nextTurn_buf
    · exact s.nextTurn_buf
  · exact s.nextTurn_buf
  · exact (engineTransition_buf (by simpa using he)).trans s.nextTurn_buf
  · exact absurd hturn hreset
  · exact s.nextTurn_buf

/-- Settles O55: the digest is the four lanes of the four words. -/
theorem digestIsPackedLittleEndian : Obligations.DigestIsPackedLittleEndian := by
  intro q j hj
  match j, hj with
  | 0, _ | 1, _ | 2, _ | 3, _ => exact ⟨rfl, rfl, rfl, rfl, rfl⟩

/-! ### Instances and windows (R50, R62, R230) -/

theorem windowOffset_of_mem {place : Config.Placement} {addr : Nat} (hlo : place.base ≤ addr)
    (hhi : addr < place.base + 64) : windowOffset place addr = some (BitVec.ofNat 6 (addr - place.base)) :=
  if_pos ⟨hlo, hhi⟩

theorem windowOffset_of_not_mem {place : Config.Placement} {addr : Nat}
    (h : addr < place.base ∨ place.base + 64 ≤ addr) : windowOffset place addr = none :=
  if_neg (by rw [Config.windowBytes]; omega)

/-- What delivering an access does to one of the blocks of a platform. -/
def Instance.receive (x : Instance) (dir : Dir) (addr : Nat) (width : Width) (v : Word) : Instance :=
  match windowOffset x.place addr with
  | some off => { x with state := x.state.arrive (.access (accessWord dir off) width v) }
  | none => x

variable {p q : Platform} {dir : Dir} {addr : Nat} {width : Width} {v : Word}

theorem deliver_eq_map : p.deliver dir addr width v = p.map fun y => y.receive dir addr width v := rfl

theorem receive_place (y : Instance) : (y.receive dir addr width v).place = y.place := by
  unfold Instance.receive
  split <;> rfl

theorem receive_of_mem {y : Instance} (hlo : y.place.base ≤ addr) (hhi : addr < y.place.base + 64) :
    y.receive dir addr width v =
      { y with state := y.state.arrive (.access (accessWord dir (BitVec.ofNat 6 (addr - y.place.base))) width v) } := by
  rw [Instance.receive, windowOffset_of_mem hlo hhi]

theorem receive_of_not_mem {y : Instance} (h : addr < y.place.base ∨ y.place.base + 64 ≤ addr) :
    y.receive dir addr width v = y := by
  rw [Instance.receive, windowOffset_of_not_mem h]

/-- The windows of a well-formed platform do not meet (R50). -/
theorem window_disjoint (hwf : p.wf = true) {i j : Fin p.length} (hne : i ≠ j) :
    p[i].place.base + 64 ≤ p[j].place.base ∨ p[j].place.base + 64 ≤ p[i].place.base := by
  simp only [Platform.wf, Bool.and_eq_true, List.all_eq_true, decide_eq_true_eq] at hwf
  obtain ⟨haligned, hnodup⟩ := hwf
  have aligned (k : Fin p.length) : p[k].place.base % 64 = 0 := by
    simpa [Config.Placement.wf, Config.windowBytes] using haligned p[k] (List.getElem_mem k.isLt)
  have distinct : p[i].place.base ≠ p[j].place.base := fun e =>
    hne (Fin.ext ((hnodup.getElem_inj_iff (hi := by simp) (hj := by simp)).mp (by simpa using e)))
  have hi := aligned i
  have hj := aligned j
  omega

/-- A step of the platform puts the next state of block `k` in its place. -/
theorem stepAt_eq_set {k : Fin p.length} (h : p.stepAt k = .next q) :
    ∃ s, step p[k].state = .next s ∧ q = p.set k { p[k] with state := s } := by
  unfold Platform.stepAt at h
  cases hs : step p[k].state with
  | next s => rw [hs] at h; cases h; exact ⟨s, rfl, rfl⟩
  | fault r => rw [hs] at h; cases h
  | refused r => rw [hs] at h; cases h

/-- Settles O57: each block receives by its own window, and windows do not meet. -/
theorem instancesShareNothing : Obligations.InstancesShareNothing := by
  refine ⟨fun p dir addr width v x hx => ?_, fun p dir addr width v i j hwf hne hlo hhi => ?_, fun p q k j h hne => ?_⟩
  · rw [deliver_eq_map, List.mem_map] at hx
    obtain ⟨y, hy, rfl⟩ := hx
    exact ⟨y, hy, receive_place y, fun hout => by rw [receive_of_not_mem hout]⟩
  · have hout : addr < p[j].place.base ∨ p[j].place.base + 64 ≤ addr := by
      have := window_disjoint hwf hne
      omega
    have received (k : Fin p.length) :
        (p.deliver dir addr width v)[k]? = some (p[k].receive dir addr width v) := by simp [deliver_eq_map]
    exact ⟨by rw [received, receive_of_not_mem hout], by rw [received, receive_of_mem hlo hhi]; rfl⟩
  · obtain ⟨s, -, rfl⟩ := stepAt_eq_set h
    simp [Fin.val_ne_of_ne hne.symm]

end Sys2Proof.Machine
end

section
/-! The statements of the encodings (30_encoding.md): decoder and encoder are inverse to each other, the legal words and
the access words; what an ABSORB makes of the block, from what a sequence of bytes makes of one at rest; and host
programs: `wait` ends, and every program ends at its atomic result. -/

namespace Sys2Proof.Machine

variable {s t : State} {off : Offset} {dir : Dir} {width : Width} {p q r : HostProgram} {st : Stmt} {rest : List Stmt}

/-! ### The access words (R57, R76) -/

theorem decode_access_busError (h : off.toNat % 4 ≠ 0 ∨ width ≠ .w32) (v : Word) :
    decode (.access (accessWord dir off) width v) = .busError dir off width v := by
  rw [decode_access, if_pos (h.imp_left (mt (offset_aligned_iff off).mp))]

theorem decode_read_aligned (h : off.toNat % 4 = 0) (v : Word) :
    decode (.access (accessWord .read off) .w32 v) = decodeRead off := by
  have aligned : ¬ (off.extractLsb' 0 2 ≠ 0#2 ∨ Width.w32 ≠ .w32) := by simp [(offset_aligned_iff off).mpr h]
  rw [decode_access, if_neg aligned]

/-- What the data lanes of an aligned read carry makes no difference. -/
theorem decode_read_eq_readAccess (h : off.toNat % 4 = 0) (v : Word) :
    decode (.access (accessWord .read off) .w32 v) = decode (readAccess off) := by
  rw [readAccess, decode_read_aligned h, decode_read_aligned h]

theorem accOffset_aligned (n : BitVec 2) : ((0b10#2 ++ n) ++ 0b00#2).toNat % 4 = 0 := by
  revert n; decide

theorem reservedOffsets_aligned : ∀ off ∈ reservedOffsets, off.toNat % 4 = 0 := by decide

theorem mem_ignoredOffsets_iff (off : Offset) : off ∈ ignoredOffsets ↔ off.toNat % 4 = 0 ∧ off ≠ 0x00 ∧ off ≠ 0x08 := by
  revert off; decide

/-- Settles O5: the kinds of access exclude each other by alignment, width and offset. -/
theorem accessWordsSelectTheirAccess : Obligations.AccessWordsSelectTheirAccess :=
  ⟨fun _ _ _ v h => decode_access_busError h v, fun _ => rfl, fun _ => rfl,
    fun _ v ha hcmd hdata => decode_writeAccess_ignored ha hcmd hdata v,
    fun _ => rfl, fun _ => rfl, fun _ => rfl, fun _ => rfl, fun _ => rfl,
    fun n v => (decode_read_eq_readAccess (accOffset_aligned n) v).trans (decode_readAccess_acc n),
    fun off v h =>
      (decode_read_eq_readAccess (reservedOffsets_aligned off h) v).trans (decode_readAccess_reserved off h)⟩

/-! ### Decoding and encoding (R70, R71, R73, R76) -/

/-- Settles O1: each word is decoded. -/
theorem writtenOutWordsDecode : Obligations.WrittenOutWordsDecode := by
  unfold Obligations.WrittenOutWordsDecode
  decide

/-- Settles O2: row by row; where a row has operand checks they are what the decoder asks of its word. -/
theorem decodeOfEncodeIsTheInstruction : Obligations.DecodeOfEncodeIsTheInstruction := by
  intro i hwf
  cases i with
  | nop | init | final | clrerr | wrCmd | wrData | rdCmd | rdStatus | rdData | rdLenLo | rdLenHi => rfl
  | absorb cnt => exact congrArg Command.toInstr ((decodeCommand_eq_absorb_iff _ cnt).mpr rfl)
  | illegal w => exact congrArg Command.toInstr (decodeCommand_of_not_legal (by simpa [Instr.wf] using hwf))
  | wrIgnored off v =>
    obtain ⟨ha, hcmd, hdata⟩ := (mem_ignoredOffsets_iff off).mp (by simpa [Instr.wf] using hwf)
    exact decode_writeAccess_ignored ha hcmd hdata v
  | rdAcc n => exact decode_readAccess_acc n
  | rdReserved off => exact decode_readAccess_reserved off (by simpa [Instr.wf] using hwf)
  | busError dir off width v => exact decode_access_busError (by simpa [Instr.wf] using hwf) v

/-- The encoded form has a well-formed meaning, and is the encoding of it if the host issues the form. -/
def RoundTrips (op : HostOp) : Prop := (decode op).wf = true ∧ (op.canonical = true → encode (decode op) = op)

theorem command_roundTrips (w : Word) : RoundTrips (.command w) := by
  by_cases hw : w ∈ legalWords
  · revert w
    refine forall_legalWords ?_ ?_ ?_ ?_ ?_ ?_ ?_ ?_ <;> exact ⟨rfl, fun _ => rfl⟩
  · have hdecode : decode (.command w) = .illegal w := congrArg Command.toInstr (decodeCommand_of_not_legal hw)
    rw [RoundTrips, hdecode]
    exact ⟨by simpa [Instr.wf] using hw, fun _ => rfl⟩

theorem write_roundTrips (h : off.toNat % 4 = 0) (v : Word) : RoundTrips (writeAccess off v) := by
  by_cases hcmd : off = 0x00
  · subst hcmd; exact ⟨rfl, fun _ => rfl⟩
  by_cases hdata : off = 0x08
  · subst hdata; exact ⟨rfl, fun _ => rfl⟩
  rw [RoundTrips, decode_writeAccess_ignored h hcmd hdata]
  exact ⟨by simpa [Instr.wf] using (mem_ignoredOffsets_iff off).mpr ⟨h, hcmd, hdata⟩, fun _ => rfl⟩

theorem readAccess_roundTrips : ∀ off : Offset, off.toNat % 4 = 0 →
    (decode (readAccess off)).wf = true ∧ encode (decode (readAccess off)) = readAccess off := by
  decide

/-- A read as the host issues it carries zero (log 13). -/
theorem data_of_canonical_read {v : Word} (h : off.toNat % 4 = 0)
    (hc : (HostOp.access (accessWord .read off) .w32 v).canonical = true) : v = 0 := by
  have isRead : ∀ off : Offset, (accessWord .read off).extractLsb' 6 1 = 0#1 := by decide
  have low : ∀ off : Offset, off.toNat % 4 = 0 → (accessWord .read off).extractLsb' 0 2 = 0#2 := by decide
  simpa [HostOp.canonical, isRead off, low off h] using hc

theorem access_roundTrips (dir : Dir) (off : Offset) (width : Width) (v : Word) :
    RoundTrips (.access (accessWord dir off) width v) := by
  by_cases hbus : off.toNat % 4 ≠ 0 ∨ width ≠ .w32
  · rw [RoundTrips, decode_access_busError hbus]
    exact ⟨by simpa [Instr.wf] using hbus, fun _ => rfl⟩
  obtain ⟨ha, rfl⟩ : off.toNat % 4 = 0 ∧ width = .w32 := by simpa using hbus
  cases dir with
  | write => exact write_roundTrips ha v
  | read =>
    obtain ⟨hwf, hencode⟩ := readAccess_roundTrips off ha
    rw [RoundTrips, decode_read_eq_readAccess ha]
    exact ⟨hwf, fun hc => by rw [hencode, data_of_canonical_read ha hc, readAccess]⟩

/-- Settles O3: an access word is the access word of its fields. -/
theorem encodeOfDecodeIsTheWord : Obligations.EncodeOfDecodeIsTheWord := by
  intro op
  cases op with
  | command w => exact command_roundTrips w
  | access aw width v =>
    rw [← accessWord_of_fields aw]
    exact access_roundTrips _ _ width v

/-! ### The legal command words (R73) -/

/-- A command word is the word of its four fields (R70). -/
theorem cmdw_of_fields (w : Word) :
    cmdw (w.extractLsb' 28 4) (w.extractLsb' 26 2) (w.extractLsb' 24 2) (w.extractLsb' 0 24) = w := by
  rw [cmdw, BitVec.extractLsb'_append_extractLsb'_eq_extractLsb' (by rfl),
    BitVec.extractLsb'_append_extractLsb'_eq_extractLsb' (by rfl),
    BitVec.extractLsb'_append_extractLsb'_eq_extractLsb' (by rfl)]
  simp

/-- What R73 says of the fields of an illegal word. -/
theorem not_legal_iff (w : Word) : w ∉ legalWords ↔
    (w.extractLsb' 28 4).toNat ≥ 5 ∨ w.extractLsb' 26 2 ≠ 0 ∨ w.extractLsb' 0 24 ≠ 0 ∨
      (w.extractLsb' 24 2 ≠ 0 ∧ w.extractLsb' 28 4 ≠ 2) := by
  refine ⟨fun hw => ?_, fun hfields hw => absurd hfields ?_⟩
  · have legal : ∀ (op : BitVec 4) (cnt : BitVec 2),
        op.toNat < 5 → (cnt = 0 ∨ op = 2) → cmdw op 0 cnt 0 ∈ legalWords := by decide
    by_contra hfields
    simp only [not_or, ge_iff_le, not_le, not_not, Classical.not_and_iff_not_or_not] at hfields
    obtain ⟨hop, hrsv1, hrsv0, hcnt⟩ := hfields
    have := legal _ _ hop hcnt
    rw [← hrsv1, ← hrsv0] at this
    exact hw (by simpa only [cmdw_of_fields] using this)
  · clear hfields
    revert w
    refine forall_legalWords ?_ ?_ ?_ ?_ ?_ ?_ ?_ ?_ <;> decide

/-- Settles O4: the illegal words are those with a field out of its range, and each is the command ILLEGAL. -/
theorem exactlyEightWordsAreLegal : Obligations.ExactlyEightWordsAreLegal := by
  refine ⟨rfl, rfl, rfl, rfl, rfl, rfl, rfl, rfl, absorb_mask_iff, not_legal_iff,
    fun w => decodeCommand_of_not_legal, fun w s hw hr he => ?_⟩
  rw [exec_wrCmd, decodeCommand_of_not_legal hw, exec_command_of_ready _ hr]
  simp [commandEffect, illegalEffect, State.signalError, he, State.complete]

/-! ### ABSORB (R72, R107, R108) -/

/-- The low CNT + 1 bytes of DATA (R72). -/
theorem absorbBytes_eq_map_range (data : Word) (cnt : BitVec 2) :
    absorbBytes data cnt = (List.range (cnt.toNat + 1)).map fun j => data.extractLsb' (8 * j) 8 := by
  have indices : ∀ cnt : BitVec 2, [0, 1, 2, 3].take (byteCount cnt) = List.range (cnt.toNat + 1) := by decide
  rw [absorbBytes, indices]
  rfl

theorem appendBytes_fill (bs : List Byte) (s : State) :
    (s.appendBytes bs).fill = s.fill + BitVec.ofNat 6 bs.length := by
  induction bs generalizing s with
  | nil => simp [appendBytes_nil]
  | cons b bs ih => rw [appendBytes_cons, ih, State.appendByte_fill, List.length_cons, ofNat_length_cons]

/-- Bytes appended to a block at rest go to BUF up to its end and else to PEND, whether they complete it or not. -/
theorem appendBytes_buf_pend (bs : List Byte) (hb : s.busy = false) :
    (s.appendBytes bs).buf = writeBytes s.buf s.fill (bs.take (64 - s.fill.toNat)) ∧
    (s.appendBytes bs).pend = s.pend ++ bs.drop (64 - s.fill.toNat) := by
  by_cases hl : 64 ≤ s.fill.toNat + bs.length
  · rw [appendBytes_of_full bs s hb hl]
    exact ⟨rfl, rfl⟩
  · have hle : bs.length ≤ 64 - s.fill.toNat := by omega
    rw [appendBytes_of_room bs s hb (by omega), List.take_of_length_le hle, List.drop_eq_nil_of_le hle]
    exact ⟨rfl, (List.append_nil _).symm⟩

/-- BUF after a list of bytes given by their index is appended to a block at rest. -/
theorem getByte_appendBytes_map_range (f : Nat → Byte) (n : Nat) (hb : s.busy = false) (j : BitVec 6) :
    getByte (s.appendBytes ((List.range n).map f)).buf j =
      if s.fill.toNat ≤ j.toNat ∧ j.toNat < s.fill.toNat + n then f (j.toNat - s.fill.toNat) else getByte s.buf j := by
  have hfill := s.fill.isLt
  have hj := j.isLt
  rw [(appendBytes_buf_pend _ hb).1, getByte_writeBytes _ _ _ _ (by rw [List.length_take]; omega)]
  by_cases hin : s.fill.toNat ≤ j.toNat ∧ j.toNat < s.fill.toNat + n
  · rw [if_pos hin, dif_pos (by simp; omega)]
    simp
  · rw [if_neg hin, dif_neg (by simp; omega)]

/-- Settles O19: the bytes of DATA are appended to a block at rest, and BITLEN counts them. -/
theorem absorbAppendsTheLowBytesOfData : Obligations.AbsorbAppendsTheLowBytesOfData := by
  intro cnt s hr hp
  refine ⟨_, exec_command_of_ready (.absorb cnt) hr, ?_⟩
  obtain ⟨-, hb⟩ := hr
  have hlen := absorbBytes_length s.data cnt
  have hbyte := getByte_appendBytes_map_range (fun j => s.data.extractLsb' (8 * j) 8) (cnt.toNat + 1) hb
  obtain ⟨-, hpend⟩ := appendBytes_buf_pend (absorbBytes s.data cnt) hb
  obtain ⟨hacc, -, hdata, hphase, herr, hcode, hreset, hport, -, hturns⟩ := appendBytes_frame (absorbBytes s.data cnt) s
  rw [← absorbBytes_eq_map_range] at hbyte
  rw [commandEffect, absorbEffect_eq cnt s hp]
  refine ⟨?_, rfl, hbyte, ?_, fun hl => ?_, fun hl => ?_, hacc, hdata, hphase, herr, hcode, hreset, hturns,
    congrArg List.tail hport, rfl⟩
  · exact (appendBytes_fill _ s).trans (by rw [hlen])
  · rw [List.map_drop, ← absorbBytes_eq_map_range]
    exact hpend
  · rw [appendBytes_of_room _ s hb (by omega)]
    exact ⟨hb, rfl, rfl, rfl⟩
  · rw [appendBytes_of_full _ s hb (by omega)]
    exact ⟨rfl, rfl, rfl, rfl⟩

/-! ### A host program between its statements (R77, R78) -/

/-- The host has issued no access that waits and no statement it is not done with. -/
structure HostProgram.Between (p : HostProgram) (todo : List Stmt) : Prop where
  running : p.block.Running
  answered : p.block.port = []
  done : p.current = none
  todo_eq : p.todo = todo

/-- The host has issued the accesses of a statement and they are not all answered, or it has yet to see that they are. -/
structure HostProgram.Within (p : HostProgram) (st : Stmt) (rest : List Stmt) : Prop where
  running : p.block.Running
  current_eq : p.current = some st
  todo_eq : p.todo = rest

theorem between_start (hs : s.Running) (hport : s.port = []) (prog : List Stmt) :
    (HostProgram.start s prog).Between prog := ⟨hs, hport, rfl, rfl⟩

theorem HostProgram.Between.finished (hp : p.Between []) : p.Finished := ⟨hp.done, hp.todo_eq, hp.answered⟩

theorem State.result_of_answered (hport : s.port = []) : s.result = s.settle.arch := by
  rw [State.result, hport]; rfl

theorem HostProgram.runSteps_one (h : p.step = .next q) : HostProgram.runSteps 1 p = .next q :=
  (runSteps_succ_iff 0 p q).mpr ⟨q, h, rfl⟩

/-- A statement performed atomically (R258). -/
def Stmt.perform (a : Arch) (st : Stmt) : Arch := (st.assemble.map decode).foldl Arch.access a

theorem issue_block (p : HostProgram) (st : Stmt) (rest : List Stmt) :
    (p.issue st rest).block = p.block.surround (p.block.port ++ st.assemble) p.block.response p.block.turns :=
  foldl_arrive st.assemble p.block

/-- Issuing a statement adds its accesses to the result to come. -/
theorem HostProgram.Between.issue (hp : p.Between (st :: rest)) :
    p.step = .next (p.issue st rest) ∧ (p.issue st rest).Within st rest ∧
    (p.issue st rest).block.port = st.assemble ∧ (p.issue st rest).block.result = st.perform p.block.settle.arch := by
  have hport : (p.issue st rest).block.port = st.assemble := by
    rw [issue_block, surround_port, hp.answered, List.nil_append]
  refine ⟨step_issue hp.answered hp.done hp.todo_eq, ⟨?_, rfl, rfl⟩, hport, ?_⟩
  · rw [issue_block]
    exact ⟨hp.running.inv.setSchedule _ _, hp.running.released, hp.running.schedule⟩
  · rw [State.result, hport, issue_block, settle_surround, surround_arch, Stmt.perform]

/-- The host carries a statement out again or is done with it. -/
theorem HostProgram.Within.finish {todo : List Stmt} (hp : p.Within st rest) (hport : p.block.port = [])
    (htodo : (if st.repeats p.block.response then st :: rest else rest) = todo) :
    p.step = .next (p.finish st) ∧ (p.finish st).Between todo :=
  ⟨step_finish hport hp.current_eq, hp.running, hport, rfl, by rw [← htodo, ← hp.todo_eq]; rfl⟩

/-- While an access waits the block makes a step, to the same result and with less work left. -/
theorem HostProgram.Within.step (hp : p.Within st rest) (hport : p.block.port ≠ []) :
    ∃ t, Machine.step p.block = .next t ∧ p.step = .next (p.record t) ∧ (p.record t).Within st rest ∧
      t.result = p.block.result ∧ workLeft t < workLeft p.block := by
  obtain ⟨t, ht⟩ := runTurn_next p.block.nextTurn.1 p.block.nextTurn.2
  obtain ⟨hrun, hresult⟩ := running_step hp.running ht
  exact ⟨t, ht, (step_of_waiting hport).trans (stepBlock_of_next ht), ⟨hrun, hp.current_eq, hp.todo_eq⟩, hresult,
    step_workLeft_lt hp.running ht fun ⟨h, _⟩ => hport h⟩

/-- Every statement but `wait` comes to its end: its accesses are performed and it is not carried out again. -/
theorem HostProgram.Within.ends (hne : st ≠ .wait) (hp : p.Within st rest) : ∃ n q,
    HostProgram.runSteps n p = .next q ∧ q.Between rest ∧ q.block.settle.arch = p.block.result := by
  induction hw : workLeft p.block using Nat.strong_induction_on generalizing p with
  | _ w ih =>
    by_cases hport : p.block.port = []
    · obtain ⟨hstep, hq⟩ := hp.finish hport (if_neg (ne_true_of_eq_false (Stmt.repeats_of_ne_wait hne _)))
      exact ⟨1, _, runSteps_one hstep, hq, (State.result_of_answered hport).symm⟩
    · obtain ⟨t, -, hstep, hwithin, hresult, hlt⟩ := hp.step hport
      obtain ⟨n, q, hn, hq, harch⟩ := ih _ (hw ▸ hlt) hwithin rfl
      exact ⟨n + 1, q, (runSteps_succ_iff n p q).mpr ⟨_, hstep, hn⟩, hq, harch.trans hresult⟩

/-! ### `wait` (R78, R194, R255) -/

theorem perform_wait (a : Arch) : Stmt.wait.perform a = a := rfl

theorem exec_rdStatus_of_released (h : s.resetIn = false) :
    exec .rdStatus s = .next (s.complete (.value s.statusWord)) :=
  (exec_rdStatus s).trans (whenReleased_of_released _ h)

theorem workLeft_surround (s : State) (port : List HostOp) (r : Option Response) (ts : List Config.Turn) :
    workLeft (s.surround port r ts) = ts.length + 163 * port.length + remaining s := rfl

theorem State.remaining_nextTurn (s : State) : remaining s.nextTurn.2 = remaining s := by
  rw [nextTurn_eq_surround]; rfl

/-- While the engine has a transition to make, the host moves only when the schedule says so. -/
theorem turns_length_of_host (hhost : s.nextTurn.1 = .host) (ha : s.engineActive = true) :
    s.nextTurn.2.turns.length < s.turns.length := by
  cases hturns : s.turns with
  | nil => simp [nextTurn_of_active hturns ha] at hhost
  | cons x ts => simp [nextTurn_of_cons hturns]

/-- A step while the read of STATUS that `wait` issued waits: the read still waits, or it returns STATUS. If it returns
BUSY = 1, the host's turn was a scheduled one, so that there is less work left even with the read issued again. -/
theorem step_statusRead_cases (hs : s.Running) (hport : s.port = Stmt.wait.assemble) (h : step s = .next t) :
    t.port = s.port ∨
    (t.port = [] ∧ t.response = some (.value t.statusWord) ∧ (t.busy = true → workLeft t + 163 < workLeft s)) := by
  obtain ⟨hhost | hengine, hn, -⟩ := hs.nextTurn
  · rw [step_of_host hport (Prod.ext hhost rfl)] at h
    obtain rfl : s.nextTurn.2.complete (.value s.nextTurn.2.statusWord) = t :=
      Host.Outcome.next.inj ((exec_rdStatus_of_released hn.released).symm.trans h)
    refine .inr ⟨by simp [hport, Stmt.assemble], rfl, fun hb => ?_⟩
    have hlt := turns_length_of_host hhost (hs.inv.busy_iff ▸ s.nextTurn_busy ▸ hb)
    have hremaining : remaining (s.nextTurn.2.complete (.value s.nextTurn.2.statusWord)) = remaining s :=
      s.remaining_nextTurn
    simp only [workLeft, hremaining, hport, State.complete_port, State.complete_turns, State.nextTurn_port,
      Stmt.assemble, List.tail_cons, List.length_cons, List.length_nil]
    omega
  · rw [step, hengine] at h
    cases h
    exact .inl (by simp)

theorem record_answers_of_waiting (h : t.port = p.block.port) : (p.record t).answers = p.answers := by
  simp [HostProgram.record, h]

theorem record_answers_of_answered (hport : p.block.port ≠ []) (ht : t.port = []) :
    (p.record t).answers = p.answers ++ t.response.toList := by
  simp [HostProgram.record, ht, List.length_pos_iff.mpr hport]

/-- `wait` comes to its end from `p` in `q`: every read but the last returned BUSY = 1, the last BUSY = 0, and the engine
rests where it was to come to rest. -/
structure HostProgram.WaitEnds (p q : HostProgram) (rest : List Stmt) : Prop where
  run : ∃ n, HostProgram.runSteps n p = .next q
  between : q.Between rest
  answers : ∃ vs : List Word, q.answers = p.answers ++ (vs ++ [q.block.statusWord]).map .value ∧
    ∀ v ∈ vs, v.extractLsb' 0 1 = 1
  rests : q.block.busy = false
  arch_eq : q.block.arch = p.block.result

/-- Steps in which reads are answered with BUSY = 1 can come before the end of a `wait`. -/
theorem HostProgram.WaitEnds.of_runSteps {m : Nat} {ws : List Word} (hq : q.WaitEnds r rest)
    (hrun : HostProgram.runSteps m p = .next q) (hanswers : q.answers = p.answers ++ ws.map .value)
    (hws : ∀ v ∈ ws, v.extractLsb' 0 1 = 1) (hresult : q.block.result = p.block.result) : p.WaitEnds r rest := by
  obtain ⟨⟨n, hn⟩, hbetween, ⟨vs, hvalues, hvs⟩, hrests, harch⟩ := hq
  refine ⟨⟨m + n, runSteps_add hrun hn⟩, hbetween, ⟨ws ++ vs, by simp [hvalues, hanswers], fun v hv => ?_⟩, hrests,
    harch.trans hresult⟩
  exact (List.mem_append.mp hv).elim (hws v) (hvs v)

/-- A read answered with BUSY = 1 is issued again. -/
theorem HostProgram.Within.reissue (hp : p.Within .wait rest) (hport : p.block.port = [])
    (hrep : Stmt.wait.repeats p.block.response = true) : ∃ q, HostProgram.runSteps 2 p = .next q ∧ q.Within .wait rest ∧
      q.block.port = Stmt.wait.assemble ∧ q.answers = p.answers ∧ q.block.result = p.block.result ∧
      workLeft q.block = workLeft p.block + 163 := by
  obtain ⟨hfinish, hbetween⟩ := hp.finish hport (if_pos hrep)
  obtain ⟨hissue, hwithin, hissued, hresult⟩ := hbetween.issue
  refine ⟨_, runSteps_add (runSteps_one hfinish) (runSteps_one hissue), hwithin, hissued, rfl, ?_, ?_⟩
  · rw [hresult, perform_wait, State.result_of_answered hport]
    rfl
  · rw [issue_block, workLeft_surround, workLeft]
    simp only [HostProgram.finish, hport, Stmt.assemble, List.length_append, List.length_cons, List.length_nil]
    omega

/-- The read that `wait` issued is answered in the end with BUSY = 0: every step leaves less work, and so does a read
answered with BUSY = 1 and issued again. -/
theorem HostProgram.Within.wait_ends (hp : p.Within .wait rest) (hport : p.block.port = Stmt.wait.assemble) :
    ∃ q, p.WaitEnds q rest := by
  induction hw : workLeft p.block using Nat.strong_induction_on generalizing p with
  | _ w ih =>
    have hne : p.block.port ≠ [] := hport ▸ Stmt.wait.assemble_ne_nil
    obtain ⟨t, ht, hstep, hwithin, hresult, hlt⟩ := hp.step hne
    obtain hwaits | ⟨hanswered, hresponse, hless⟩ := step_statusRead_cases hp.running hport ht
    · obtain ⟨q, hq⟩ := ih _ (hw ▸ hlt) hwithin (hwaits.trans hport) rfl
      have hanswers : (p.record t).answers = p.answers ++ [].map .value := by simp [record_answers_of_waiting hwaits]
      exact ⟨q, hq.of_runSteps (runSteps_one hstep) hanswers (by simp) hresult⟩
    · have hanswers : (p.record t).answers = p.answers ++ [t.statusWord].map .value := by
        rw [record_answers_of_answered hne hanswered, hresponse]; rfl
      have hrepeats : Stmt.wait.repeats (p.record t).block.response = t.busy := by
        rw [record_block, hresponse]
        exact statusBusy_statusWord t
      cases hb : t.busy with
      | false =>
        obtain ⟨hfinish, hq⟩ := hwithin.finish hanswered (if_neg (ne_true_of_eq_false (hrepeats.trans hb)))
        refine ⟨_, ⟨2, runSteps_add (runSteps_one hstep) (runSteps_one hfinish)⟩, hq, ⟨[], hanswers, by simp⟩, hb, ?_⟩
        rw [← hresult, State.result_of_answered hanswered]
        exact congrArg State.arch (hwithin.running.inv.settle_of_not_busy hb).symm
      | true =>
        obtain ⟨q, hrun, hagain, hport', hanswers', hresult', hwork⟩ := hwithin.reissue hanswered (hrepeats.trans hb)
        obtain ⟨r, hr⟩ := ih _ (hw ▸ hwork ▸ hless hb) hagain hport' rfl
        refine ⟨r, hr.of_runSteps (runSteps_add (runSteps_one hstep) hrun) (hanswers'.trans hanswers) ?_
          (hresult'.trans hresult)⟩
        obtain ⟨hbusy, -⟩ := statusWord_fields t
        simp [hbusy, hb]

/-- Settles O58: the word answered decides whether `wait` is carried out again, and `wait_ends` that it ends. -/
theorem waitReadsStatusUntilBusyIsZero : Obligations.WaitReadsStatusUntilBusyIsZero := by
  refine ⟨fun p v hc hport hresponse => ⟨fun hbusy => ?_, fun hbusy => ?_⟩, fun p rest hc hport ht => ?_,
    fun s hi hreset hport hturns => ?_⟩
  · have hrep : Stmt.wait.repeats p.block.response = true := by
      rw [hresponse, ← Bool.not_eq_false]
      exact fun e => absurd (hbusy.symm.trans ((statusBusy_eq_false_iff v).mp e)) (by decide)
    rw [HostProgram.step_finish hport hc, HostProgram.finish, hrep]
    rfl
  · have hrep : Stmt.wait.repeats p.block.response = false := by
      rw [hresponse]
      exact (statusBusy_eq_false_iff v).mpr hbusy
    rw [HostProgram.step_finish hport hc, HostProgram.finish, hrep]
    rfl
  · rw [HostProgram.step_issue hport hc ht, HostProgram.issue, foldl_arrive, hport]
    rfl
  · obtain ⟨hissue, hwithin, hissued, hresult⟩ := (between_start ⟨hi, hreset, hturns⟩ hport [.wait]).issue
    obtain ⟨q, ⟨n, hn⟩, hbetween, ⟨vs, hanswers, hvs⟩, hrests, harch⟩ := hwithin.wait_ends hissued
    obtain ⟨hbusy, -⟩ := statusWord_fields q.block
    refine ⟨n + 1, q, vs, (HostProgram.runSteps_succ_iff n _ q).mpr ⟨_, hissue, hn⟩, hbetween.finished, hanswers, hvs,
      ?_, ⟨hbetween.running.released, hrests⟩, harch.trans hresult⟩
    rw [hbusy, hrests]
    rfl

/-! ### Whole programs (R77, R78) -/

/-- A statement is carried out to its end and performed. -/
theorem HostProgram.Between.statement_ends (hp : p.Between (st :: rest)) : ∃ n q,
    HostProgram.runSteps n p = .next q ∧ q.Between rest ∧ q.block.settle.arch = st.perform p.block.settle.arch := by
  obtain ⟨hissue, hwithin, hissued, hresult⟩ := hp.issue
  rw [← hresult]
  have ends : ∃ n q, HostProgram.runSteps n (p.issue st rest) = .next q ∧ q.Between rest ∧
      q.block.settle.arch = (p.issue st rest).block.result := by
    by_cases hwait : st = .wait
    · subst hwait
      obtain ⟨q, ⟨n, hn⟩, hq, -, hrests, harch⟩ := hwithin.wait_ends hissued
      exact ⟨n, q, hn, hq, by rw [hq.running.inv.settle_of_not_busy hrests, harch]⟩
    · exact hwithin.ends hwait
  obtain ⟨n, q, hn, hq⟩ := ends
  exact ⟨n + 1, q, (runSteps_succ_iff n p q).mpr ⟨_, hissue, hn⟩, hq⟩

theorem HostProgram.Between.program_ends {prog : List Stmt} (hp : p.Between prog) : ∃ n q,
    HostProgram.runSteps n p = .next q ∧ q.Between [] ∧
    q.block.settle.arch = prog.foldl Stmt.perform p.block.settle.arch := by
  induction prog generalizing p with
  | nil => exact ⟨0, p, rfl, hp, rfl⟩
  | cons st prog ih =>
    obtain ⟨m, q, hm, hq, hperform⟩ := hp.statement_ends
    obtain ⟨n, r, hn, hr, harch⟩ := ih hq
    exact ⟨m + n, r, runSteps_add hm hn, hr, by rw [harch, hperform, List.foldl_cons]⟩

/-- The accesses of a program performed atomically are its statements performed one after the other. -/
theorem foldl_access_assemble (prog : List Stmt) (a : Arch) :
    ((prog.flatMap Stmt.assemble).map decode).foldl Arch.access a = prog.foldl Stmt.perform a := by
  induction prog generalizing a with
  | nil => rfl
  | cons st prog ih => rw [List.flatMap_cons, List.map_append, List.foldl_append, ih, List.foldl_cons, Stmt.perform]

/-- A `wait` makes no difference to the result. -/
theorem foldl_perform_filter_wait (prog : List Stmt) (a : Arch) :
    (prog.filter (· ≠ .wait)).foldl Stmt.perform a = prog.foldl Stmt.perform a := by
  induction prog generalizing a with
  | nil => rfl
  | cons st prog ih =>
    by_cases hwait : st = .wait
    · subst hwait
      exact ih a
    · rw [List.filter_cons_of_pos (by simpa using hwait), List.foldl_cons, List.foldl_cons, ih]

/-- Settles O59: statement by statement, each at its end performed atomically. -/
theorem programGivesTheAtomicResultWithOrWithoutWait : Obligations.ProgramGivesTheAtomicResultWithOrWithoutWait := by
  intro s prog hi hreset hport hturns
  obtain ⟨n, q, hn, hq, harch⟩ := (between_start ⟨hi, hreset, hturns⟩ hport prog).program_ends
  refine ⟨n, q, hn, hq.finished, hq.running.released, ?_, ?_⟩
  · exact harch.trans (foldl_access_assemble prog _).symm
  · rw [foldl_access_assemble, foldl_perform_filter_wait]
    exact harch

end Sys2Proof.Machine
end

section
/-! The statements of the padder (40_padder.md): the padded message and the bytes FINAL appends, which are its end; that
no step stops; and a whole message, whose commands performed atomically hash it, under every schedule. -/

namespace Sys2Proof.Machine

variable {a : Arch}

/-! ### Runs never stop (R100, R129) -/

theorem step_next (s : State) : ∃ t, step s = .next t := runTurn_next s.nextTurn.1 s.nextTurn.2

/-- Settles O12: every step answers a next state, so every number of steps does. -/
theorem theMachineNeverStops : Obligations.TheMachineNeverStops := by
  intro s n
  induction n generalizing s with
  | zero => exact ⟨s, rfl⟩
  | succ n ih =>
    obtain ⟨u, hu⟩ := step_next s
    obtain ⟨t, ht⟩ := ih u
    exact ⟨t, (runSteps_succ_iff n s t).mpr ⟨u, hu, ht⟩⟩

/-! ### Commands (R107 to R109, R258) -/

/-- Settles O52: `commandEffect_settle_arch`, for each command; the access's response makes no difference to it. -/
theorem commandsRefineTheirAtomicForm : Obligations.CommandsRefineTheirAtomicForm := by
  intro c s hi hr
  refine ⟨_, exec_command_of_ready c hr, settle_busy ((hi.commandEffect c hr).complete _), ?_⟩
  rw [settle_complete_arch, commandEffect_settle_arch c hi hr]

/-! ### The bytes FINAL appends (R53, R102 to R104, R109) -/

theorem lengthBytes_eq_map_range (n : BitVec 64) :
    lengthBytes n = (List.range 8).map fun q => n.extractLsb' (8 * q) 8 := rfl

theorem finalBytes_marker (f : BitVec 6) (n : BitVec 64) : (finalBytes f n)[0]? = some 0x80 := rfl

theorem finalBytes_zero (f : BitVec 6) (n : BitVec 64) {k : Nat} (hk : k < (55 - f).toNat) :
    (finalBytes f n)[1 + k]? = some 0x00 := by
  rw [finalBytes, List.cons_append, Nat.add_comm, List.getElem?_cons_succ,
    List.getElem?_append_left (by simpa using hk), List.getElem?_replicate_of_lt hk]

theorem finalBytes_length_field (f : BitVec 6) (n : BitVec 64) {q : Nat} (hq : q < 8) :
    (finalBytes f n)[1 + (55 - f).toNat + q]? = some (n.extractLsb' (8 * q) 8) := by
  rw [finalBytes, List.cons_append, show 1 + (55 - f).toNat + q = (55 - f).toNat + q + 1 by omega,
    List.getElem?_cons_succ, List.getElem?_append_right (by simp), lengthBytes_eq_map_range]
  simp [hq]

/-- How many zero bytes FINAL appends: up to 56 in this block or, from FILL = 56 on, in the next. -/
theorem finalZeros_toNat (f : BitVec 6) : (55 - f).toNat = if f.toNat ≤ 55 then 55 - f.toNat else 119 - f.toNat := by
  split <;> bv_omega

/-- The byte of FINAL's that goes to position `j` of the block that the message fills up to `f` (R109). -/
theorem finalBytes_at_position (f j : BitVec 6) (n : BitVec 64) (hj : f.toNat ≤ j.toNat) :
    (finalBytes f n)[j.toNat - f.toNat]? = some
      (if j = f then 0x80
      else if f.toNat ≤ 55 ∧ 56 ≤ j.toNat then n.extractLsb' (8 * (j.toNat - 56)) 8
      else 0x00) := by
  have hz := finalZeros_toNat f
  have hlt := j.isLt
  by_cases hjf : j = f
  · rw [if_pos hjf, hjf, Nat.sub_self, finalBytes_marker]
  have hne : j.toNat ≠ f.toNat := fun e => hjf (BitVec.eq_of_toNat_eq e)
  rw [if_neg hjf]
  by_cases hl : f.toNat ≤ 55 ∧ 56 ≤ j.toNat
  · rw [if_pos hl.1] at hz
    have hpos : j.toNat - f.toNat = 1 + (55 - f).toNat + (j.toNat - 56) := by omega
    rw [if_pos hl, hpos, finalBytes_length_field f n (by omega)]
  · have hpos : j.toNat - f.toNat = 1 + (j.toNat - f.toNat - 1) := by omega
    rw [if_neg hl, hpos, finalBytes_zero f n (by split at hz <;> omega)]

/-- The bytes of FINAL that the block has no room for: none, or the zero bytes and the length of a second block. -/
theorem finalBytes_drop (f : BitVec 6) (n : BitVec 64) :
    (finalBytes f n).drop (64 - f.toNat) = if f.toNat ≤ 55 then [] else List.replicate 56 0x00 ++ lengthBytes n := by
  have hlen := finalBytes_length f n
  have hz := finalZeros_toNat f
  have hf := f.isLt
  by_cases h : f.toNat ≤ 55
  · rw [if_pos h] at hlen ⊢
    exact List.drop_eq_nil_of_le hlen.le
  · rw [if_neg h] at hz ⊢
    rw [finalBytes, List.cons_append, show 64 - f.toNat = 63 - f.toNat + 1 by omega, List.drop_succ_cons,
      List.drop_append_of_le_length (by rw [List.length_replicate]; omega), List.drop_replicate,
      show (55 - f).toNat - (63 - f.toNat) = 56 by omega]

/-- Settles O20: the bytes FINAL appends complete the block, and those after its 64th wait. -/
theorem finalPadsTheMessage : Obligations.FinalPadsTheMessage := by
  intro s hr hp
  refine ⟨_, exec_command_of_ready .final hr, ?_⟩
  obtain ⟨-, hb⟩ := hr
  have hfull := finalBytes_full s.fill s.bitlen
  rw [commandEffect, finalEffect_eq s hp, appendBytes_of_full _ s hb hfull]
  refine ⟨rfl, finalBytes_fill _ _, rfl, rfl, rfl, rfl, fun j => ?_, ?_, rfl, rfl, rfl, rfl, rfl, rfl, rfl, rfl, rfl⟩
  · have hf := s.fill.isLt
    have hj := j.isLt
    simp only [State.complete_buf]
    rw [getByte_writeBytes _ _ _ _ (by rw [List.length_take]; omega)]
    by_cases hlt : j.toNat < s.fill.toNat
    · rw [if_pos hlt, dif_neg (by omega)]
    · rw [if_neg hlt, dif_pos (by rw [List.length_take]; omega), List.getElem_take, List.getElem_eq_iff]
      exact finalBytes_at_position s.fill j s.bitlen (by omega)
  · exact congrArg (s.pend ++ ·) (finalBytes_drop s.fill s.bitlen)

/-! ### The padded message (R100 to R105) -/

theorem finalZeros_of_message (m : List Byte) : (55 - BitVec.ofNat 6 m.length).toNat = zeroCount m.length := by
  rw [BitVec.toNat_sub, BitVec.toNat_ofNat, zeroCount]
  change (64 - m.length % 64 + 55) % 64 = _
  congr 1
  omega

/-- What stands behind the message in the padded message are the bytes FINAL appends to it. -/
theorem pad_getElem? (m : List Byte) (i : Nat) :
    (pad m)[m.length + i]? = (finalBytes (BitVec.ofNat 6 m.length) (BitVec.ofNat 64 (8 * m.length)))[i]? := by
  rw [← append_finalBytes_eq_pad, List.getElem?_append_right (by omega), Nat.add_sub_cancel_left]

/-- Settles O54: the bytes behind the message are the marker, the zero bytes and the length field. -/
theorem paddingMeetsItsContract : Obligations.PaddingMeetsItsContract := by
  intro m
  have hlen := pad_length m
  have hz := finalZeros_of_message m
  refine ⟨⟨_, append_finalBytes_eq_pad m⟩, ?_, ?_, ?_, hlen, ?_, ?_, ?_, pad_getElem? m 0, fun k hk => ?_,
    fun q hq => ?_, ?_⟩
  · rw [hlen, blockCount]; omega
  · rw [hlen]; omega
  · simp [pad]; omega
  · rw [zeroCount]; omega
  · rw [zeroCount]; omega
  · rw [zeroCount]; omega
  · rw [Nat.add_assoc, pad_getElem?]
    exact finalBytes_zero _ _ (hz ▸ hk)
  · rw [Nat.add_assoc, Nat.add_assoc, pad_getElem?, ← Nat.add_assoc, ← hz]
    exact finalBytes_length_field _ _ hq
  · rw [blockCount]; split <;> omega

/-! ### The worked examples (R109, R142, R147) -/

/-- Settles O45: the step and the two compressions are evaluated. -/
theorem workedCompressionExamples : Obligations.WorkedCompressionExamples := by
  unfold Obligations.WorkedCompressionExamples
  decide +kernel

/-! ### A message as the host delivers it (R108, R110, R253) -/

/-- The same with another BITLEN and DATA. -/
def Arch.withCountAndData (a : Arch) (n : BitVec 64) (d : Word) : Arch := { a with bitlen := n, data := d }

/-- AppendByte neither reads nor writes BITLEN and DATA (R107). -/
theorem appendBytes_withCountAndData (bs : List Byte) (a : Arch) (n : BitVec 64) (d : Word) :
    bs.foldl Arch.appendByte (a.withCountAndData n d) = (bs.foldl Arch.appendByte a).withCountAndData n d := by
  refine List.foldl_hom (f := fun a => Arch.withCountAndData a n d) fun a b => ?_
  by_cases h : a.fill = 63
  · rw [arch_appendByte_of_last a b h, arch_appendByte_of_last (a.withCountAndData n d) b h]; rfl
  · rw [arch_appendByte_of_room a b h, arch_appendByte_of_room (a.withCountAndData n d) b h]; rfl

/-- The message bytes `bs` have been absorbed, and DATA holds `d`. -/
def Arch.absorbed (a : Arch) (bs : List Byte) (d : Word) : Arch :=
  (bs.foldl Arch.appendByte a).withCountAndData (a.bitlen + 8 * BitVec.ofNat 64 bs.length) d

theorem absorbed_absorbed (bs cs : List Byte) (a : Arch) (d e : Word) :
    (a.absorbed bs d).absorbed cs e = a.absorbed (bs ++ cs) e := by
  have hcount : a.bitlen + 8 * BitVec.ofNat 64 bs.length + 8 * BitVec.ofNat 64 cs.length =
      a.bitlen + 8 * BitVec.ofNat 64 (bs ++ cs).length := by
    rw [List.length_append, BitVec.ofNat_add, BitVec.mul_add, BitVec.add_assoc]
  rw [Arch.absorbed, Arch.absorbed, appendBytes_withCountAndData, ← List.foldl_append, Arch.absorbed, ← hcount]
  rfl

/-- A write of DATA absorbs no byte (R195). -/
theorem access_wrData (a : Arch) (v : Word) : a.access (.wrData v) = a.absorbed [] v :=
  (congrArg (fun n => a.withCountAndData n v) (BitVec.add_zero a.bitlen)).symm

/-- The fields that absorbing moves or leaves, but for ACC and BUF. -/
theorem absorbed_fields (a : Arch) (bs : List Byte) (d : Word) :
    (a.absorbed bs d).fill = a.fill + BitVec.ofNat 6 bs.length ∧ (a.absorbed bs d).phase = a.phase ∧
    (a.absorbed bs d).err = a.err ∧ (a.absorbed bs d).errcode = a.errcode := by
  obtain ⟨hfill, -, -, hphase, herr, hcode⟩ := arch_appendBytes_frame bs a
  exact ⟨hfill, hphase, herr, hcode⟩

/-- An ABSORB in PHASE = ABSORB (R108). -/
theorem access_absorb (h : a.phase = .absorb) (cnt : BitVec 2) :
    a.access (.absorb cnt) = a.absorbed (absorbBytes a.data cnt) a.data := by
  obtain ⟨-, -, hdata, -⟩ := arch_appendBytes_frame (absorbBytes a.data cnt) a
  rw [Arch.absorbed, absorbBytes_length]
  calc a.absorb cnt = Arch.withCountAndData _ _ ((absorbBytes a.data cnt).foldl Arch.appendByte a).data :=
        arch_absorb_eq cnt a h
    _ = _ := by rw [hdata]

/-- The accesses for one ABSORB of a delivery: the write of DATA, if there is one, and the command (R253). -/
theorem access_absorb_of_delivery (h : a.phase = .absorb) (v : Option Word) (cnt : BitVec 2) :
    ((Delivery.accesses [(v, cnt)]).map decode).foldl Arch.access a =
      a.absorbed (absorbBytes (v.getD a.data) cnt) (v.getD a.data) := by
  have hdecode : decode (encode (.absorb cnt)) = .absorb cnt := decodeOfEncodeIsTheInstruction (.absorb cnt) rfl
  cases v with
  | none => exact (congrArg a.access hdecode).trans (access_absorb h cnt)
  | some v =>
    obtain ⟨-, hphase, -⟩ := absorbed_fields a [] v
    calc _ = (a.access (.wrData v)).access (.absorb cnt) := congrArg (a.access (.wrData v)).access hdecode
      _ = (a.absorbed [] v).absorbed (absorbBytes v cnt) v := by
        rw [access_wrData, access_absorb (hphase.trans h)]; rfl
      _ = _ := absorbed_absorbed [] _ a v v

/-- The accesses of a delivery absorb its bytes in order, whatever the grouping (R108, R253). -/
theorem access_delivery (cs : Delivery) (h : a.phase = .absorb) :
    ∃ d, (cs.accesses.map decode).foldl Arch.access a = a.absorbed (cs.bytes a.data) d := by
  induction cs generalizing a with
  | nil => exact ⟨a.data, access_wrData a a.data⟩
  | cons c cs ih =>
    obtain ⟨v, cnt⟩ := c
    obtain ⟨-, hphase, -⟩ := absorbed_fields a (absorbBytes (v.getD a.data) cnt) (v.getD a.data)
    obtain ⟨d, hd⟩ := ih (hphase.trans h)
    refine ⟨d, ?_⟩
    have hsplit : Delivery.accesses ((v, cnt) :: cs) = Delivery.accesses [(v, cnt)] ++ Delivery.accesses cs :=
      List.flatMap_append (xs := [(v, cnt)]) (ys := cs)
    rw [hsplit, List.map_append, List.foldl_append, access_absorb_of_delivery h, hd, absorbed_absorbed]
    rfl

theorem count_from_zero (n : Nat) : (0 : BitVec 64) + 8 * BitVec.ofNat 64 n = BitVec.ofNat 64 (8 * n) := by
  rw [BitVec.ofNat_mul]
  exact BitVec.zero_add _

/-- `b` holds what hashing the message `m` leaves, and the error record of `a` (R106, R110, R173). -/
structure Arch.Hashed (b a : Arch) (m : List Byte) : Prop where
  acc_eq : b.acc = messageState m
  phase_eq : b.phase = .done
  bitlen_eq : b.bitlen = BitVec.ofNat 64 (8 * m.length)
  err_eq : b.err = a.err
  errcode_eq : b.errcode = a.errcode

/-- INIT, the bytes of the message absorbed, FINAL: FINAL's bytes make the message the padded message, whose blocks are
compressed in order. -/
theorem init_absorbed_final_hashed (a : Arch) (m : List Byte) (d : Word) :
    ((a.command .init).absorbed m d).final.Hashed a m := by
  obtain ⟨hfill, hphase, herr, hcode⟩ := absorbed_fields (a.command .init) m d
  have hzero : (a.command .init).fill + BitVec.ofNat 6 m.length = BitVec.ofNat 6 m.length := BitVec.zero_add _
  have hcount : ((a.command .init).absorbed m d).bitlen = BitVec.ofNat 64 (8 * m.length) := count_from_zero m.length
  obtain ⟨-, hbitlen, -, -, herrFinal, hcodeFinal⟩ := arch_appendBytes_frame
    (finalBytes (BitVec.ofNat 6 m.length) (BitVec.ofNat 64 (8 * m.length))) ((a.command .init).absorbed m d)
  rw [arch_final_eq _ hphase, hfill, hzero, hcount]
  refine ⟨?_, rfl, hbitlen.trans hcount, herrFinal.trans herr, hcodeFinal.trans hcode⟩
  calc _ = ((pad m).foldl Arch.appendByte (a.command .init)).acc := by
        rw [← append_finalBytes_eq_pad, List.foldl_append, Arch.absorbed, appendBytes_withCountAndData]
        rfl
    _ = messageState m := arch_appendBytes_blocks _ (pad m) _ (pad_length m) rfl

/-- The accesses for one message performed atomically, from any state: INIT forgets what was before (R110, R171). -/
theorem access_message_hashed (cs : Delivery) (a : Arch) :
    ((cs.messageAccesses.map decode).foldl Arch.access a).Hashed a (cs.bytes a.data) := by
  obtain ⟨d, hd⟩ := access_delivery (a := a.command .init) cs rfl
  have hfinal : (cs.messageAccesses.map decode).foldl Arch.access a =
      ((a.command .init).absorbed (cs.bytes a.data) d).final := by
    rw [Delivery.messageAccesses, List.cons_append, List.map_cons, List.foldl_cons, List.map_append, List.foldl_append]
    exact congrArg Arch.final hd
  exact hfinal ▸ init_absorbed_final_hashed a _ d

/-- Settles O56: the run comes to the accesses performed atomically, whatever the schedule, and they hash the message. -/
theorem messageIsHashedUnderEverySchedule : Obligations.MessageIsHashedUnderEverySchedule := by
  intro s cs turns hi hr hn
  obtain ⟨n, t, hrun, hport, hturns, hb, harch⟩ := everyScheduleGivesTheAtomicResult
    { s with port := cs.messageAccesses } turns (hi.setSchedule _ s.turns) hr hn
  obtain ⟨-, -, hdata, -, herr, hcode⟩ := settle_arch_frame { s with port := cs.messageAccesses }
  have hashed := access_message_hashed cs (State.settle { s with port := cs.messageAccesses }).arch
  rw [hdata, ← harch] at hashed
  exact ⟨n, t, hrun, hport, hturns, hb, hashed.phase_eq, hashed.acc_eq, hashed.bitlen_eq, hashed.err_eq.trans herr,
    hashed.errcode_eq.trans hcode⟩

end Sys2Proof.Machine
end

section
/-! The statements of the compression (41_compression.md): the round functions and the rotation bit by bit, the tables of
the 48 steps and their fixed-variable form, and what a block on the engine comes to and when the engine rests. -/

namespace Sys2Proof.Machine

variable {s : State}

/-! ### The engine (R146 to R148, R258) -/

/-- Settles O44: a block on the engine comes to `compress`, which is the feed-forward written out. -/
theorem engineCompressesTheBlock : Obligations.EngineCompressesTheBlock :=
  fun s => engineRun_block s

/-- An engine that has work changes its STEP, its ENG or PEND with each transition (R148). -/
theorem engineTransition_ne_of_active (ha : s.engineActive = true) : s.engineTransition ≠ s := by
  intro heq
  cases he : s.eng with
  | run =>
    have hstep : s.step + 1 = s.step := by
      simpa [engineTransition_of_run he] using congrArg State.step heq
    exact absurd hstep (by simp)
  | ff =>
    have heng : Eng.idle = s.eng := by
      simpa [engineTransition_of_ff he] using congrArg State.eng heq
    rw [he] at heng
    cases heng
  | idle =>
    cases hp : s.pend with
    | nil => rw [engineActive_eq_false.mpr ⟨he, hp⟩] at ha; cases ha
    | cons b rest =>
      have hpend : rest = s.pend := by
        simpa [engineTransition_of_pend he hp] using congrArg State.pend heq
      exact List.cons_ne_self b rest (hp.symm.trans hpend.symm)

theorem engineActive_eq_true : s.engineActive = true ↔ s.eng ≠ .idle ∨ s.pend ≠ [] := by
  rw [← Bool.not_eq_false, engineActive_eq_false, not_and_or]

/-- Settles O10: as many steps as transitions remain are those transitions, and the invariant bounds their number. -/
theorem engineComesToRest : Obligations.EngineComesToRest := by
  refine ⟨fun s hi _ ht => ?_, fun s he hp => engineTransition_of_rest (engineActive_eq_false.mpr ⟨he, hp⟩),
    fun s h => engineTransition_ne_of_active (engineActive_eq_true.mpr h)⟩
  obtain ⟨hrun, hrest⟩ := runSteps_remaining (remaining s) s hi ht rfl
  obtain ⟨heng, hpend⟩ := engineActive_eq_false.mp hrest
  obtain ⟨hport, hresponse, hturns, -⟩ := engineRun_frame (remaining s) s
  have hbusy := (engineRun_inv (remaining s) s hi).busy_iff.trans hrest
  exact ⟨_, _, remaining_le hi, hrun, hbusy, heng, hpend, hport, hresponse, hturns.trans ht⟩

/-! ### The rotation (R135, R139) -/

/-- A bit from position `s` on comes from `s` positions below (R135). -/
theorem rotl32_getLsbD_of_ge (v : Word) {s p : Nat} (hp : p < 32) (h : s ≤ p) :
    (rotl32 v s).getLsbD p = v.getLsbD (p - s) := by
  have hout : v.getLsbD (32 - s + p) = false := BitVec.getLsbD_of_ge v _ (by omega)
  simp only [rotl32, BitVec.getLsbD_or, BitVec.getLsbD_shiftLeft, BitVec.getLsbD_ushiftRight, hout]
  simp [hp, h]

/-- A bit below position `s` comes round from the top of the word (R135). -/
theorem rotl32_getLsbD_of_lt (v : Word) {s p : Nat} (h : p < s) :
    (rotl32 v s).getLsbD p = v.getLsbD (32 - s + p) := by
  simp [rotl32, h]

theorem round_amount_mem (r : Round) (i : Fin 16) : r.amount i ∈ [3, 5, 7, 9, 11, 13, 15, 19] := by
  revert i
  cases r <;> decide

/-- Settles O40: the bits that the left shift moves, and those that the right shift brings round. -/
theorem rotateMovesEachBit : Obligations.RotateMovesEachBit := by
  refine ⟨fun v s p _ hs hp => ?_, round_amount_mem⟩
  rcases Nat.lt_or_ge p s with h | h
  · rw [rotl32_getLsbD_of_lt v h, show (p + 32 - s) % 32 = 32 - s + p by omega]
  · rw [rotl32_getLsbD_of_ge v hp h, show (p + 32 - s) % 32 = p - s by omega]

/-! ### The round functions (R132 to R134) -/

theorem fnF_getLsbD (x y z : Word) {p : Nat} (hp : p < 32) :
    (fnF x y z).getLsbD p = if x.getLsbD p then y.getLsbD p else z.getLsbD p := by
  have hbit : (fnF x y z).getLsbD p = (x.getLsbD p && y.getLsbD p || !x.getLsbD p && z.getLsbD p) := by
    simp [fnF, hp]
  rw [hbit]
  cases x.getLsbD p <;> simp

/-- Of three bits, two agree on 1 in one of the three pairs exactly when at least two are 1. -/
theorem majority_iff (a b c : Bool) : (a && b || a && c || b && c) = true ↔ 2 ≤ [a, b, c].countP id := by
  revert a b c
  decide

theorem parity_iff (a b c : Bool) : ((a ^^ b) ^^ c) = true ↔ [a, b, c].countP id % 2 = 1 := by
  revert a b c
  decide

theorem fnG_getLsbD_iff (x y z : Word) (p : Nat) :
    (fnG x y z).getLsbD p = true ↔ 2 ≤ [x, y, z].countP fun v => v.getLsbD p := by
  have hbit : (fnG x y z).getLsbD p =
      (x.getLsbD p && y.getLsbD p || x.getLsbD p && z.getLsbD p || y.getLsbD p && z.getLsbD p) := by
    simp [fnG]
  rw [hbit]
  exact majority_iff _ _ _

theorem fnH_getLsbD_iff (x y z : Word) (p : Nat) :
    (fnH x y z).getLsbD p = true ↔ ([x, y, z].countP fun v => v.getLsbD p) % 2 = 1 := by
  have hbit : (fnH x y z).getLsbD p = ((x.getLsbD p ^^ y.getLsbD p) ^^ z.getLsbD p) := by
    simp [fnH]
  rw [hbit]
  exact parity_iff _ _ _

/-- Settles O39: each function bit by bit. -/
theorem roundFunctionsBitByBit : Obligations.RoundFunctionsBitByBit :=
  ⟨fun _ _ _ => ⟨rfl, rfl, rfl⟩,
    fun x y z p hp => ⟨fnF_getLsbD x y z hp, fnG_getLsbD_iff x y z p, fnH_getLsbD_iff x y z p⟩⟩

/-! ### The tables of the 48 steps (R137 to R142) -/

/-- A round uses every word of the block once (R137). -/
theorem round_order_bijective (r : Round) : Function.Bijective r.order := by
  cases r <;> decide

/-- Settles O41: each table is read off, and the step is the definition. -/
theorem roundTablesAreAsListed : Obligations.RoundTablesAreAsListed :=
  ⟨by decide, by decide, by decide, round_order_bijective, by decide, by decide, by decide, rfl, rfl, rfl, by decide,
    rfl, rfl, rfl, fun _ _ _ => rfl⟩

/-! ### The fixed-variable form (R142 to R145)

A step writes the register in the first role and then rotates the roles; a row writes the variable that is in the first
role at that step. The proof moves the update of a row through the rotations. -/

/-- Where the role rotation carries the contents of a variable. -/
def FixedVar.rotate : FixedVar → FixedVar
  | .va => .vb
  | .vb => .vc
  | .vc => .vd
  | .vd => .va

/-- An update commutes with the role rotation, its variable rotated along. -/
theorem rotate_fixedUpdate (r : Round) (buf : Vector Byte 64) (q : Quad) (row : FixedRow) :
    (fixedUpdate r buf q row).rotate = fixedUpdate r buf q.rotate { row with var := row.var.rotate } := by
  obtain ⟨var, k, s⟩ := row
  cases var <;> rfl

theorem rotateBy_fixedUpdate (r : Round) (buf : Vector Byte 64) (n : Nat) (q : Quad) (row : FixedRow) :
    (fixedUpdate r buf q row).rotateBy n =
      fixedUpdate r buf (q.rotateBy n) { row with var := FixedVar.rotate^[n] row.var } := by
  induction n generalizing q row with
  | zero => rfl
  | succ n ih => rw [Quad.rotateBy, rotate_fixedUpdate, ih]; rfl

theorem rotateBy_succ (n : Nat) (q : Quad) : q.rotateBy (n + 1) = (q.rotateBy n).rotate := by
  induction n generalizing q with
  | zero => rfl
  | succ n ih => exact ih q.rotate

/-- A step updates the variable in the first role and rotates the roles (R142). -/
theorem engineStep_eq_rotate (buf : Vector Byte 64) (j : Fin 48) (q : Quad) :
    engineStep buf j q = (fixedUpdate (Round.ofStep j) buf q
      ⟨.va, (Round.ofStep j).order (stepInRound j), (Round.ofStep j).amount (stepInRound j)⟩).rotate := rfl

/-- Row `j` of the tables has the round, the word and the amount of step `j`, and `j` rotations carry its variable into
the first role (R137, R139, R141, R143 to R145). -/
theorem fixedRows_row (j : Fin 48) :
    fixedRows[j.val].1 = Round.ofStep j ∧
    { fixedRows[j.val].2 with var := FixedVar.rotate^[j.val] fixedRows[j.val].2.var } =
      FixedRow.mk .va ((Round.ofStep j).order (stepInRound j)) ((Round.ofStep j).amount (stepInRound j)) := by
  revert j
  decide

/-- Step `j` on the rotated variables is the update of row `j`, rotated once more. -/
theorem engineStep_rotateBy (buf : Vector Byte 64) (j : Fin 48) (q : Quad) :
    engineStep buf j (q.rotateBy j.val) =
      (fixedUpdate fixedRows[j.val].1 buf q fixedRows[j.val].2).rotateBy (j.val + 1) := by
  obtain ⟨hround, hrow⟩ := fixedRows_row j
  rw [engineStep_eq_rotate, rotateBy_succ, rotateBy_fixedUpdate, hrow, hround]

theorem stepsUpTo_succ (buf : Vector Byte 64) (q : Quad) (j : Fin 48) :
    stepsUpTo (j.val + 1) buf q = engineStep buf j (stepsUpTo j.val buf q) := by
  have hj : j.val < (List.finRange 48).length := by simp
  rw [stepsUpTo, List.take_succ_eq_append_getElem hj, List.foldl_append]
  simp [stepsUpTo]

theorem fixedSteps_succ (buf : Vector Byte 64) (q : Quad) (j : Fin 48) :
    fixedSteps (j.val + 1) buf q = fixedUpdate fixedRows[j.val].1 buf (fixedSteps j.val buf q) fixedRows[j.val].2 := by
  rw [fixedSteps, List.take_succ_eq_append_getElem (show j.val < fixedRows.length from j.isLt), List.foldl_append]
  rfl

/-- After `n` steps the registers hold the variables of the tables, the roles rotated `n` times (R143). -/
theorem stepsUpTo_eq_rotateBy (buf : Vector Byte 64) (q : Quad) {n : Nat} (hn : n ≤ 48) :
    stepsUpTo n buf q = (fixedSteps n buf q).rotateBy n := by
  induction n with
  | zero => rfl
  | succ n ih =>
    have hsteps := ih (by omega)
    calc stepsUpTo (n + 1) buf q = engineStep buf ⟨n, hn⟩ (stepsUpTo n buf q) := stepsUpTo_succ buf q ⟨n, hn⟩
      _ = engineStep buf ⟨n, hn⟩ ((fixedSteps n buf q).rotateBy n) := by rw [hsteps]
      _ = (fixedSteps (n + 1) buf q).rotateBy (n + 1) := by
        rw [fixedSteps_succ buf q ⟨n, hn⟩]
        exact engineStep_rotateBy buf ⟨n, hn⟩ _

theorem stepsUpTo_all (buf : Vector Byte 64) (q : Quad) : stepsUpTo 48 buf q = allSteps buf q := by
  rw [stepsUpTo, allSteps, List.take_of_length_le (by simp)]

/-- Four rotations are a whole turn of the roles. -/
theorem rotateBy_turns (n : Nat) (q : Quad) : q.rotateBy (4 * n) = q := by
  induction n with
  | zero => rfl
  | succ n ih => exact ih

/-- Settles O43: the registers are the rotated variables after every step, and the variables in place after all 48. -/
theorem fixedVariableTablesAgree : Obligations.FixedVariableTablesAgree :=
  ⟨fun _ buf q hn => stepsUpTo_eq_rotateBy buf q hn,
    fun buf q => by rw [← stepsUpTo_all, stepsUpTo_eq_rotateBy buf q (Nat.le_refl 48)]; exact rotateBy_turns 12 _⟩

end Sys2Proof.Machine
end

section
/-! The statements of the accumulator (42_accumulator.md): INIT and the feed-forward are all that writes ACC, so the
digest stays; the command words of INIT; and what a read of ACC answers. -/

namespace Sys2Proof.Machine

variable {s t : State} {i : Instr}

/-! ### Who writes ACC (R172) -/

theorem commandEffect_acc_cases (c : Command) (s : State) :
    (commandEffect c s).acc = s.acc ∨ (c = .init ∧ commandEffect c s = initEffect s) := by
  obtain init | ⟨-, cnt, -, e⟩ | ⟨-, -, e⟩ | ⟨-, err, code, e⟩ := commandEffect_cases c s
  · exact .inr init
  · obtain ⟨hacc, -⟩ := appendBytes_frame (absorbBytes s.data cnt) s
    exact .inl (e ▸ hacc)
  · obtain ⟨hacc, -⟩ := appendBytes_frame (finalBytes s.fill s.bitlen) s
    exact .inl (e ▸ hacc)
  · exact .inl (e ▸ rfl)

theorem exec_acc_cases (h : exec i s = .next t) :
    t.acc = s.acc ∨ (Performs i .init ∧ t.acc = initialState ∧ t.phase = .absorb) := by
  obtain ⟨-, rfl⟩ | ⟨-, c, hc, rfl⟩ | ⟨-, v, -, rfl⟩ | ⟨-, r, rfl⟩ := exec_next_performs h
  · exact .inl rfl
  · obtain e | ⟨rfl, e⟩ := commandEffect_acc_cases c s
    · exact .inl e
    · exact .inr ⟨hc, by simp [e]⟩
  · exact .inl rfl
  · exact .inl rfl

theorem engineTransition_acc_cases (s : State) :
    s.engineTransition.acc = s.acc ∨ (s.eng = .ff ∧ s.engineTransition.acc = feedForward s.acc s.w) := by
  cases he : s.eng with
  | run => exact .inl (by simp [engineTransition_of_run he])
  | ff => exact .inr ⟨rfl, by simp [engineTransition_of_ff he]⟩
  | idle =>
    cases hp : s.pend with
    | nil => rw [engineTransition_of_rest (engineActive_eq_false.mpr ⟨he, hp⟩)]; exact .inl rfl
    | cons b rest => exact .inl (by simp [engineTransition_of_pend he hp])

/-- Settles O47: of the host's accesses only INIT writes ACC, and of the engine's transitions only the feed-forward. -/
theorem onlyInitAndFeedForwardWriteAcc : Obligations.OnlyInitAndFeedForwardWriteAcc := by
  intro s t h
  obtain ⟨hturn, i, hf, he⟩ | ⟨-, -, rfl⟩ | ⟨hturn, rfl⟩ | ⟨hturn, rfl⟩ | ⟨-, rfl⟩ := step_cases h
  · obtain e | ⟨hi, hacc, hphase⟩ := exec_acc_cases he
    · exact .inl (e.trans s.nextTurn_acc)
    · exact .inr (.inr (.inl ⟨hturn, by simpa [hf] using performs_init_iff.mp hi, hacc, hphase⟩))
  · exact .inl s.nextTurn_acc
  · obtain e | ⟨hff, e⟩ := engineTransition_acc_cases s.nextTurn.2
    · exact .inl (e.trans s.nextTurn_acc)
    · rw [s.nextTurn_acc, s.nextTurn_w] at e
      exact .inr (.inl ⟨hturn, s.nextTurn_eng ▸ hff, e⟩)
  · exact .inr (.inr (.inr ⟨hturn, rfl⟩))
  · exact .inl s.nextTurn_acc

/-! ### The digest stays (R174) -/

/-- Outside PHASE = ABSORB only INIT moves ACC, PHASE or BUSY: ABSORB and FINAL append nothing there (R108, R109). -/
theorem exec_outside_absorb (hp : s.phase ≠ .absorb) (h : exec i s = .next t) :
    Performs i .init ∨ (t.acc = s.acc ∧ t.phase = s.phase ∧ t.busy = s.busy) := by
  obtain ⟨-, rfl⟩ | ⟨-, c, hc, rfl⟩ | ⟨-, v, -, rfl⟩ | ⟨-, r, rfl⟩ := exec_next_performs h
  · exact .inr ⟨rfl, rfl, rfl⟩
  · obtain ⟨rfl, -⟩ | ⟨hp', -⟩ | ⟨hp', -⟩ | ⟨-, err, code, e⟩ := commandEffect_cases c s
    · exact .inl hc
    · exact absurd hp' hp
    · exact absurd hp' hp
    · rw [e]; exact .inr ⟨rfl, rfl, rfl⟩
  · exact .inr ⟨rfl, rfl, rfl⟩
  · exact .inr ⟨rfl, rfl, rfl⟩

/-- Settles O49: with BUSY = 0 the engine rests, and in PHASE = DONE no access but INIT moves ACC, PHASE or BUSY. -/
theorem digestStaysUntilInitOrReset : Obligations.DigestStaysUntilInitOrReset := by
  intro s t hi hp hb h
  have hacc := s.nextTurn_acc
  have hphase := s.nextTurn_phase.trans hp
  have hbusy := s.nextTurn_busy.trans hb
  obtain ⟨hturn, i, hf, he⟩ | ⟨-, -, rfl⟩ | ⟨-, rfl⟩ | ⟨hturn, -⟩ | ⟨-, rfl⟩ := step_cases h
  · obtain hinit | ⟨eacc, ephase, ebusy⟩ := exec_outside_absorb (by simp [hp]) he
    · exact .inr (.inr ⟨hturn, by simpa [hf] using performs_init_iff.mp hinit⟩)
    · exact .inl ⟨eacc.trans hacc, ephase.trans hphase, ebusy.trans hbusy⟩
  · exact .inl ⟨hacc, hphase, hbusy⟩
  · have rest : s.nextTurn.2.engineActive = false := hi.nextTurn.busy_iff ▸ hbusy
    rw [engineTransition_of_rest rest]
    exact .inl ⟨hacc, hphase, hbusy⟩
  · exact .inr (.inl hturn)
  · exact .inl ⟨hacc, hphase, hbusy⟩

/-! ### INIT and its neighbours (R73, R170, R171, R193, R221) -/

/-- After an error ERR is 1 and ERRCODE is the code recorded first (R221). -/
theorem signalError_eq_first (s : State) (code : ErrCode) :
    s.signalError code = { s with err := true, errcode := if s.err then s.errcode else code } := by
  by_cases he : s.err = true
  · rw [State.signalError, if_pos he, if_pos he]
    exact congrArg (fun e => { s with err := e }) he
  · rw [State.signalError, if_neg he, if_neg he]

theorem exec_wrCmd_of_not_legal {w : Word} (hw : w ∉ legalWords) (hr : s.Ready) :
    exec (.wrCmd w) s = .next ((s.signalError .illegal).complete .written) := by
  rw [exec_wrCmd, decodeCommand_of_not_legal hw]
  exact exec_command_of_ready (.illegal w) hr

/-- INIT is the only legal word with OP = 1. -/
theorem legalWords_init : ∀ w ∈ legalWords, w.extractLsb' 28 4 = 1 → w = 0x10000000 := by
  refine forall_legalWords ?_ ?_ ?_ ?_ ?_ ?_ ?_ ?_ <;> decide

/-- Settles O18: the command is `initEffect`, whose values INIT finds already there the second time. -/
theorem initStartsAMessage : Obligations.InitStartsAMessage := by
  refine ⟨rfl, fun s hr => exec_command_of_ready .init hr, fun s t hr h => ?_, fun w hop hne => ?_, fun s hb => ?_,
    ⟨_, exec_command_of_ready .init ⟨rfl, rfl⟩, rfl, rfl, rfl, rfl⟩, rfl⟩
  · cases (exec_command_of_ready .init hr).symm.trans h
    exact exec_command_of_ready .init hr
  · have hw : w ∉ legalWords := fun hw => hne (legalWords_init w hw hop)
    refine ⟨decodeCommand_of_not_legal hw, fun s hr => ?_⟩
    rw [exec_wrCmd_of_not_legal hw hr, signalError_eq_first]; rfl
  · exact (exec_command .init s).trans (whenReady_of_busy _ hb)

/-! ### The reads of ACC (R175) -/

theorem accResponse_of_not_idle (n : BitVec 2) (hp : s.phase ≠ .idle) : accResponse s n = .value (s.acc.get n) := by
  simp [accResponse, State.acc?, hp]

/-- Settles O35: outside PHASE = IDLE ACC has a value, and the read answers word n of it. -/
theorem rdAccReturnsTheAccumulatorWord : Obligations.RdAccReturnsTheAccumulatorWord := by
  refine ⟨fun n v => ?_, fun n s hr hp => ⟨s.acc.get n, ?_, ?_⟩, fun n s hb => ?_⟩
  · have fields : (0b010#3 ++ n) ++ 0b00#2 = accessWord .read ((0b10#2 ++ n) ++ 0b00#2) := by revert n; decide
    rw [fields, decode_read_eq_readAccess (accOffset_aligned n), decode_readAccess_acc]
  · rw [exec_rdAcc, whenReady_of_ready _ hr, accResponse_of_not_idle n hp]; rfl
  · refine ⟨?_, ?_, ?_, ?_⟩ <;> rintro rfl <;> rfl
  · rw [exec_rdAcc, whenReady_of_busy _ hb]

end Sys2Proof.Machine
end

section
/-! The statements of the control (43_control.md): the command a word written to CMD selects by its legality and its
OP field; NOP, CLRERR and ILLEGAL; and the accesses of CMD, DATA and the offsets without an effect. -/

namespace Sys2Proof.Machine

variable {s : State} {w : Word}

/-! ### The command of a word (R73, R190) -/

/-- The legal words are the four without an operand and those that the mask and match of ABSORB admit. -/
theorem legalWords_iff_masks (w : Word) : w ∈ legalWords ↔
    w ∈ [0x00000000#32, 0x10000000#32, 0x30000000#32, 0x40000000#32] ∨ w &&& 0xFCFFFFFF = 0x20000000 := by
  refine ⟨?_, ?_⟩
  · revert w
    refine forall_legalWords ?_ ?_ ?_ ?_ ?_ ?_ ?_ ?_ <;> decide
  · have plain_legal : [0x00000000#32, 0x10000000#32, 0x30000000#32, 0x40000000#32] ⊆ legalWords := by decide
    rintro (plain | masked)
    · exact plain_legal plain
    · obtain rfl | rfl | rfl | rfl := (absorb_mask_iff w).mp masked <;> decide

/-- The command of a legal word, by its OP field; CNT goes to ABSORB. -/
theorem decodeCommand_of_legal : ∀ w ∈ legalWords,
    (w.extractLsb' 28 4 = 0 → decodeCommand w = .nop) ∧
    (w.extractLsb' 28 4 = 1 → decodeCommand w = .init) ∧
    (w.extractLsb' 28 4 = 2 → decodeCommand w = .absorb (w.extractLsb' 24 2)) ∧
    (w.extractLsb' 28 4 = 3 → decodeCommand w = .final) ∧
    (w.extractLsb' 28 4 = 4 → decodeCommand w = .clrerr) := by
  refine forall_legalWords ?_ ?_ ?_ ?_ ?_ ?_ ?_ ?_ <;> decide

theorem exec_wrCmd_of_decode {c : Command} (h : decodeCommand w = c) (s : State) :
    exec (.wrCmd w) s = exec c.toInstr s := by
  rw [exec_wrCmd, h]

/-- Settles O25: the write runs the command its word decodes to, which the OP field tells of a legal word. -/
theorem wrCmdDispatchesOnTheWord : Obligations.WrCmdDispatchesOnTheWord := by
  refine ⟨fun w s hw => ?_, fun w s hw => ?_, fun w s hb => ?_, fun w s hr => ?_⟩
  · exact exec_wrCmd_of_decode (decodeCommand_of_not_legal (mt (legalWords_iff_masks w).mp hw)) s
  · obtain ⟨hnop, hinit, habsorb, hfinal, hclrerr⟩ := decodeCommand_of_legal w ((legalWords_iff_masks w).mpr hw)
    exact ⟨fun hop => exec_wrCmd_of_decode (hnop hop) s, fun hop => exec_wrCmd_of_decode (hinit hop) s,
      fun hop => exec_wrCmd_of_decode (habsorb hop) s, fun hop => exec_wrCmd_of_decode (hfinal hop) s,
      fun hop => exec_wrCmd_of_decode (hclrerr hop) s⟩
  · rw [exec_wrCmd, exec_command, whenReady_of_busy _ hb]
  · obtain ⟨-, -, hport, -, -⟩ := commandEffect_frame (decodeCommand w) s
    exact ⟨_, (exec_wrCmd w s).trans (exec_command_of_ready _ hr), congrArg List.tail hport, rfl⟩

/-! ### NOP, ILLEGAL and CLRERR (R191 to R193) -/

/-- Where one word of an OP field is legal, each other word of it is illegal and only records that. -/
theorem neighbour_records_illegal {op : BitVec 4} {v : Word}
    (only : ∀ w ∈ legalWords, w.extractLsb' 28 4 = op → w = v) (hop : w.extractLsb' 28 4 = op) (hne : w ≠ v) :
    decodeCommand w = .illegal w ∧ ∀ s : State, s.Ready → exec (.wrCmd w) s = .next { s with
      err := true, errcode := if s.err then s.errcode else .illegal,
      port := s.port.tail, response := some .written } := by
  have hw : w ∉ legalWords := fun hw => hne (only w hw hop)
  refine ⟨decodeCommand_of_not_legal hw, fun s hr => ?_⟩
  rw [exec_wrCmd_of_not_legal hw hr, signalError_eq_first]; rfl

/-- NOP is the only legal word with OP = 0. -/
theorem legalWords_nop : ∀ w ∈ legalWords, w.extractLsb' 28 4 = 0 → w = 0x00000000 := by
  refine forall_legalWords ?_ ?_ ?_ ?_ ?_ ?_ ?_ ?_ <;> decide

/-- CLRERR is the only legal word with OP = 4. -/
theorem legalWords_clrerr : ∀ w ∈ legalWords, w.extractLsb' 28 4 = 4 → w = 0x40000000 := by
  refine forall_legalWords ?_ ?_ ?_ ?_ ?_ ?_ ?_ ?_ <;> decide

/-- Settles O17: the command's effect is the state itself. -/
theorem nopHasNoEffect : Obligations.NopHasNoEffect :=
  ⟨rfl, fun _ hr => exec_command_of_ready .nop hr, fun _ => neighbour_records_illegal legalWords_nop,
    _, exec_command_of_ready .nop ⟨rfl, rfl⟩, rfl⟩

theorem signalError_of_clear (he : s.err = false) (code : ErrCode) :
    s.signalError code = { s with err := true, errcode := code } := by
  simp [State.signalError, he]

theorem signalError_of_recorded (he : s.err = true) (code : ErrCode) : s.signalError code = s := by
  simp [State.signalError, he]

theorem exec_illegal_of_ready (w : Word) (hr : s.Ready) :
    exec (.illegal w) s = .next ((s.signalError .illegal).complete .written) :=
  exec_command_of_ready (.illegal w) hr

/-- Settles O22: the command signals the error ILLEGAL, which the flag ERR lets through or not. -/
theorem illegalWordRecordsIllegal : Obligations.IllegalWordRecordsIllegal := by
  refine ⟨fun w hw => congrArg Command.toInstr (decodeCommand_of_not_legal hw), fun w s hr he => ?_, fun w s hr he => ?_,
    rfl, _, exec_illegal_of_ready _ ⟨rfl, rfl⟩, rfl, rfl⟩
  · rw [exec_illegal_of_ready w hr, signalError_of_clear he]; rfl
  · rw [exec_illegal_of_ready w hr, signalError_of_recorded he]; rfl

/-- With ERR = 0 the invariant has ERRCODE NONE, so there is nothing to clear. -/
theorem State.Inv.clearError_eq_self (hi : s.Inv) (he : s.err = false) : s.clearError = s := by
  have hcode : s.errcode = .noError := hi.err_iff.mpr he
  rw [State.clearError, ← he, ← hcode]

theorem exec_clrerr_of_ready (hr : s.Ready) : exec .clrerr s = .next (s.clearError.complete .written) :=
  exec_command_of_ready .clrerr hr

/-- ABSORB before INIT or after FINAL records BAD_PHASE and does nothing else (R108). -/
theorem exec_absorb_outside_absorb (cnt : BitVec 2) (hr : s.Ready) (hp : s.phase ≠ .absorb) :
    exec (.absorb cnt) s = .next ((s.signalError .badPhase).complete .written) := by
  have effect : commandEffect (.absorb cnt) s = s.signalError .badPhase := if_neg hp
  exact effect ▸ exec_command_of_ready (.absorb cnt) hr

/-- Settles O24: the command's effect is `clearError`, the other words with OP = 4 are illegal. -/
theorem clrerrClearsOnlyTheRecord : Obligations.ClrerrClearsOnlyTheRecord := by
  refine ⟨rfl, fun s hr => exec_clrerr_of_ready hr, fun w => neighbour_records_illegal legalWords_clrerr,
    fun s hi hr he => ?_, fun cnt => ?_⟩
  · rw [exec_clrerr_of_ready hr, hi.clearError_eq_self he]; rfl
  · exact ⟨_, _, exec_absorb_outside_absorb cnt ⟨rfl, rfl⟩ (by decide), rfl, exec_clrerr_of_ready ⟨rfl, rfl⟩, rfl⟩

/-! ### The accesses of CMD and DATA (R195, R196, R199) -/

theorem exec_wrData_of_ready (v : Word) (hr : s.Ready) :
    exec (.wrData v) s = .next ({ s with data := v }.complete .written) := by
  rw [exec_wrData, whenReady_of_ready _ hr]

theorem exec_rdData_of_ready (hr : s.Ready) : exec .rdData s = .next (s.complete (.value s.data)) := by
  rw [exec_rdData, whenReady_of_ready _ hr]

/-- Settles O28: the write's effect is that of DATA alone, and BUSY holds it. -/
theorem wrDataLoadsData : Obligations.WrDataLoadsData :=
  ⟨fun _ => rfl, fun v _ hr => exec_wrData_of_ready v hr, fun v s hb => (exec_wrData v s).trans (whenReady_of_busy _ hb)⟩

/-- Settles O33: the read answers DATA, and a write of DATA leaves the block ready for it. -/
theorem rdDataReturnsData : Obligations.RdDataReturnsData := by
  refine ⟨fun v => rfl, fun s hr => exec_rdData_of_ready hr, fun s hb => (exec_rdData s).trans (whenReady_of_busy _ hb),
    ⟨_, exec_rdData_of_ready ⟨rfl, rfl⟩, rfl⟩, fun v s t u hr hwrite hread => ?_⟩
  cases (exec_wrData_of_ready v hr).symm.trans hwrite
  have ready : ({ s with data := v }.complete .written).Ready := hr
  cases (exec_rdData_of_ready ready).symm.trans hread
  rfl

/-- Settles O31: the read only answers, and BUSY holds it. -/
theorem rdCmdReturnsZero : Obligations.RdCmdReturnsZero :=
  ⟨fun _ => rfl, fun s hr => (exec_rdCmd s).trans (whenReady_of_ready _ hr),
    fun s hb => (exec_rdCmd s).trans (whenReady_of_busy _ hb)⟩

/-! ### The accesses without an effect (R200) -/

/-- Settles O30: the offsets are aligned and belong to no register the access could write or read; the accesses only
answer, and BUSY holds them. -/
theorem ignoredAndReservedAccesses : Obligations.IgnoredAndReservedAccesses := by
  refine ⟨fun off v h => ?_, fun off v s hr => ?_, fun off v h => ?_, fun off s hr => ?_, fun off v s hb => ⟨?_, ?_⟩⟩
  · have ignored : [0x04#6, 0x10#6, 0x14#6, 0x20#6, 0x24#6, 0x28#6, 0x2C#6, 0x0C#6, 0x18#6, 0x1C#6,
        0x30#6, 0x34#6, 0x38#6, 0x3C#6] ⊆ ignoredOffsets := by decide
    obtain ⟨ha, hcmd, hdata⟩ := (mem_ignoredOffsets_iff off).mp (ignored h)
    exact decode_writeAccess_ignored ha hcmd hdata v
  · exact (exec_wrIgnored off v s).trans (whenReady_of_ready _ hr)
  · exact (decode_read_eq_readAccess (reservedOffsets_aligned off h) v).trans (decode_readAccess_reserved off h)
  · exact (exec_rdReserved off s).trans (whenReady_of_ready _ hr)
  · exact (exec_wrIgnored off v s).trans (whenReady_of_busy _ hb)
  · exact (exec_rdReserved off s).trans (whenReady_of_busy _ hb)

end Sys2Proof.Machine
end

section
/-! The statements of the exceptions (60_exceptions.md): the first error is kept until CLRERR or reset, an erroneous
command records its error alone, a BusError changes no state, and a block at rest keeps its state. -/

namespace Sys2Proof.Machine

variable {s t : State} {i : Instr} {c : Command}

/-! ### The error record (R220, R221) -/

theorem performs_clrerr_iff : Performs i .clrerr ↔ i = .clrerr ∨ i = .wrCmd 0x40000000 :=
  performs_iff_of_word fun w => by
    obtain ⟨-, -, -, -, hclrerr⟩ := decodeCommand_eq_iff w
    exact hclrerr

theorem appendBytes_error (bs : List Byte) (s : State) :
    (s.appendBytes bs).err = s.err ∧ (s.appendBytes bs).errcode = s.errcode := by
  obtain ⟨-, -, -, -, herr, hcode, -⟩ := appendBytes_frame bs s
  exact ⟨herr, hcode⟩

/-- Where an error is recorded, each command but CLRERR leaves the record: the error it signals itself is lost, and
appended bytes do not touch ERR and ERRCODE. -/
theorem commandEffect_keeps_error (he : s.err = true) (hc : c ≠ .clrerr) :
    (commandEffect c s).err = s.err ∧ (commandEffect c s).errcode = s.errcode := by
  cases c with
  | nop => exact ⟨rfl, rfl⟩
  | init => exact ⟨rfl, rfl⟩
  | clrerr => exact absurd rfl hc
  | illegal w =>
    rw [commandEffect, illegalEffect, signalError_of_recorded he]
    exact ⟨rfl, rfl⟩
  | absorb cnt =>
    by_cases hp : s.phase = .absorb
    · rw [commandEffect, absorbEffect_eq cnt s hp]
      exact appendBytes_error _ s
    · rw [commandEffect, absorbEffect, if_neg hp, signalError_of_recorded he]
      exact ⟨rfl, rfl⟩
  | final =>
    by_cases hp : s.phase = .absorb
    · rw [commandEffect, finalEffect_eq s hp]
      exact appendBytes_error _ s
    · rw [commandEffect, finalEffect, if_neg hp, signalError_of_recorded he]
      exact ⟨rfl, rfl⟩

/-- An instruction writes the record only by the command it performs. -/
theorem exec_keeps_error (h : exec i s = .next t) (hi : ¬ Performs i .clrerr) (he : s.err = true) :
    t.err = s.err ∧ t.errcode = s.errcode := by
  obtain ⟨-, rfl⟩ | ⟨-, c, hc, rfl⟩ | ⟨-, v, -, rfl⟩ | ⟨-, r, rfl⟩ := exec_next_performs h
  · exact ⟨rfl, rfl⟩
  · have not_clrerr : c ≠ .clrerr := fun e => hi (e ▸ hc)
    exact commandEffect_keeps_error he not_clrerr
  · exact ⟨rfl, rfl⟩
  · exact ⟨rfl, rfl⟩

/-- Settles O23: recording looks at ERR, and of the commands only CLRERR clears what is recorded. -/
theorem recordedErrorIsSticky : Obligations.RecordedErrorIsSticky := by
  refine ⟨fun code s he => signalError_of_clear he code, fun code s he => signalError_of_recorded he code,
    fun i s t h hclrerr hword he => ?_, fun s => ⟨rfl, rfl⟩⟩
  have not_performs : ¬ Performs i .clrerr := fun hi => (performs_clrerr_iff.mp hi).elim hclrerr hword
  obtain ⟨herr, hcode⟩ := exec_keeps_error h not_performs he
  exact ⟨herr.trans he, hcode⟩

/-! ### Erroneous commands (R222, R223) -/

/-- The state in which a command that only signals an error is answered. -/
theorem signalError_complete_eq (s : State) (code : ErrCode) (r : Response) :
    (s.signalError code).complete r = { s with
      err := true, errcode := if s.err then s.errcode else code, port := s.port.tail, response := some r } := by
  rw [signalError_eq_first]; rfl

/-- FINAL before INIT or after FINAL records BAD_PHASE and does nothing else (R109). -/
theorem exec_final_outside_absorb (hr : s.Ready) (hp : s.phase ≠ .absorb) :
    exec .final s = .next ((s.signalError .badPhase).complete .written) := by
  have effect : commandEffect .final s = s.signalError .badPhase := if_neg hp
  exact effect ▸ exec_command_of_ready .final hr

/-- Settles O21: each of the four only signals its error. -/
theorem erroneousCommandOnlyRecordsItsError : Obligations.ErroneousCommandOnlyRecordsItsError := by
  refine ⟨fun w s hr => ?_, fun cnt s hr hp => ?_, fun s hr hp => ?_, fun w s hr hw => ?_⟩
  · rw [exec_illegal_of_ready w hr, signalError_complete_eq]
  · rw [exec_absorb_outside_absorb cnt hr hp, signalError_complete_eq]
  · rw [exec_final_outside_absorb hr hp, signalError_complete_eq]
  · rw [exec_wrCmd_of_not_legal hw hr, signalError_complete_eq]

/-! ### BusError (R57, R224) -/

/-- Settles O37: the decoder looks at alignment and width first, and the access is only answered. -/
theorem busErrorChangesNoState : Obligations.BusErrorChangesNoState := by
  refine ⟨fun dir off width v h => ?_, fun dir off width v s hr => ?_⟩
  · exact (decode_access dir off width v).trans (if_pos h)
  · exact (exec_busError dir off width v s).trans (whenReleased_of_released _ hr)

/-! ### A block at rest (R232, R258) -/

/-- With nothing scheduled and the engine at rest the host has the turn, and no access waits for it. -/
theorem step_of_rest (hport : s.port = []) (hturns : s.turns = []) (ha : s.engineActive = false) :
    step s = .next s := by
  rw [step, nextTurn_of_rest hturns ha, runTurn]
  simp only [fetch_eq_none_iff.mpr hport]

/-- Settles O13: each step answers the same state, so any number of steps does. -/
theorem restingBlockKeepsItsState : Obligations.RestingBlockKeepsItsState := by
  intro s n hport he hp hturns
  have hstep : step s = .next s := step_of_rest hport hturns (engineActive_eq_false.mpr ⟨he, hp⟩)
  induction n with
  | zero => rfl
  | succ n ih => exact (runSteps_succ_iff n s s).mpr ⟨s, hstep, ih⟩

end Sys2Proof.Machine
end

section
/-! The statements of reset and hazards (70_reset_and_hazards.md): what holds an access and when a held one is performed,
what the assertion of reset leaves, the only command that leaves PHASE = IDLE, and what a running engine leaves alone. -/

namespace Sys2Proof.Machine

variable {s t : State} {i : Instr}

/-! ### The hold (R255, R258) -/

/-- While reset is asserted no access is accepted (U9): each case of `exec_next_cases` but the hold needs it released. -/
theorem exec_of_resetIn (i : Instr) (hr : s.resetIn = true) : exec i s = .next s := by
  obtain ⟨t, h⟩ := exec_next i s
  obtain ⟨rfl, -⟩ | ⟨⟨released, -⟩, -⟩ | ⟨⟨released, -⟩, -⟩ | ⟨released, -⟩ := exec_next_cases h
  · exact h
  all_goals simp [hr] at released

/-- BUSY holds a command and every access that only answers, but for the two that answer at once. -/
theorem exec_held_of_busy (hb : s.busy = true) (hstatus : i ≠ .rdStatus)
    (herror : ∀ dir off width v, i ≠ .busError dir off width v) : exec i s = .next s := by
  obtain ⟨c, rfl⟩ | ⟨w, rfl⟩ | ⟨v, rfl⟩ | hanswers | rfl | ⟨dir, off, width, v, rfl⟩ := instr_kinds i
  · exact (exec_command c s).trans (whenReady_of_busy _ hb)
  · exact (exec_wrCmd w s).trans ((exec_command _ s).trans (whenReady_of_busy _ hb))
  · exact (exec_wrData v s).trans (whenReady_of_busy _ hb)
  · obtain ⟨r, hr⟩ := exec_answers hanswers
    exact (hr s).trans (whenReady_of_busy _ hb)
  · exact absurd rfl hstatus
  · exact absurd rfl (herror dir off width v)

/-- Settles O8: BUSY and the reset input hold what they hold, and the two other accesses look at the reset input alone. -/
theorem busyHoldsEveryOtherAccess : Obligations.BusyHoldsEveryOtherAccess :=
  ⟨fun _ _ hb => exec_held_of_busy hb,
    fun s _ hr => (exec_rdStatus s).trans (whenReleased_of_released _ hr),
    fun dir off width v s _ hr => (exec_busError dir off width v s).trans (whenReleased_of_released _ hr),
    fun i _ hr => exec_of_resetIn i hr⟩

/-- An access that a ready block executes leaves the port. -/
theorem exec_of_ready_port (hr : s.Ready) (i : Instr) : ∃ t, exec i s = .next t ∧ t.port = s.port.tail := by
  obtain ⟨t, h⟩ := exec_next i s
  obtain ⟨-, hheld⟩ | ⟨hport, -⟩ := exec_held_or_answered h
  · simp [hr.1, hr.2] at hheld
  · exact ⟨t, h, hport⟩

/-- Settles O11: the steps are the transitions that remain, which leave the access at the front of the port; then the
engine rests, and the host's turn performs it. -/
theorem heldAccessIsPerformed : Obligations.HeldAccessIsPerformed := by
  intro s op rest hi hr hturns hport
  obtain ⟨hrun, hrest⟩ := runSteps_remaining (remaining s) s hi hturns rfl
  have hbusy := (engineRun_inv (remaining s) s hi).busy_iff.trans hrest
  obtain ⟨tport, -, tturns, tdata, tphase, tbitlen, tfill, -, -, treset⟩ := engineRun_frame (remaining s) s
  generalize s.engineRun (remaining s) = t at *
  rw [hport] at tport
  obtain ⟨u, hexec, uport⟩ := exec_of_ready_port ⟨treset.trans hr, hbusy⟩ (decode op)
  have hstep : step t = .next u := (step_of_host tport (nextTurn_of_rest (tturns.trans hturns) hrest)).trans hexec
  have hlast : runSteps 1 t = .next u := (runSteps_succ_iff 0 t u).mpr ⟨u, hstep, rfl⟩
  rw [tport, List.tail_cons] at uport
  exact ⟨_, t, u, hrun, hbusy, tport, tdata, tphase, tbitlen, tfill, runSteps_add hrun hlast, hexec, uport⟩

/-! ### Reset (R250 to R252) -/

theorem assertReset_statusWord (s : State) : s.assertReset.statusWord = State.reset.statusWord := rfl

/-- Settles O14: at power-on and at assertion the block's fields are those of `State.reset`. -/
theorem resetLeavesTheStatedValues : Obligations.ResetLeavesTheStatedValues := by
  rintro r (rfl | ⟨s, rfl⟩)
  · exact ⟨rfl, rfl, rfl, rfl, rfl, rfl, rfl, rfl, rfl, rfl, rfl, rfl, rfl, rfl⟩
  · exact ⟨rfl, rfl, rfl, rfl, rfl, rfl, show lenLo 0 = 0 from rfl, show lenHi 0 = 0 from rfl, rfl, rfl, rfl, rfl, rfl,
      assertReset_statusWord s⟩

/-- Settles O50: it is the block of `reset_block_inv` with reset released and nothing around it. -/
theorem resetMeetsTheInvariant : Obligations.ResetMeetsTheInvariant := reset_block_inv false [] none []

/-- A step takes the scheduled turn. -/
theorem step_of_cons {x : Config.Turn} {ts : List Config.Turn} (h : s.turns = x :: ts) :
    step s = runTurn x { s with turns := ts } := by
  rw [step, nextTurn_of_cons h]

/-- Settles O15: the first step asserts reset, which leaves the values of R250 and holds every access; the second
releases it and changes nothing else. -/
theorem resetAbandonsTheCompression : Obligations.ResetAbandonsTheCompression := by
  intro s ts h
  obtain ⟨hphase, herr, hcode, hbusy, hfill, hbitlen, -, -, hdata, heng, hstep, hpend, hacc, -⟩ :=
    resetLeavesTheStatedValues (State.assertReset { s with turns := .resetOff :: ts }) (.inr ⟨_, rfl⟩)
  exact ⟨_, _, step_of_cons h, step_of_cons (x := .resetOff) (ts := ts) rfl, hbusy, heng, hpend, hstep, hphase, hacc,
    hfill, hbitlen, hdata, herr, hcode, rfl, fun i => exec_of_resetIn i rfl, rfl, rfl⟩

/-- A command answered by the record of BAD_PHASE, where no error was recorded before. -/
theorem badPhase_of_clear (he : s.err = false) (h : exec i s = .next ((s.signalError .badPhase).complete .written))
    (ht : exec i s = .next t) : t.err = true ∧ t.errcode = .badPhase := by
  cases h.symm.trans ht
  simp [he]

/-- Settles O16: PHASE moves by INIT, or by a FINAL in ABSORB; in IDLE an ABSORB or FINAL only signals BAD_PHASE. -/
theorem onlyInitLeavesIdle : Obligations.OnlyInitLeavesIdle := by
  intro i s t hp h
  have not_absorb : s.phase ≠ .absorb := by simp [hp]
  refine ⟨?_, fun hi hr he => ?_⟩
  · obtain e | ⟨hinit, e⟩ | ⟨-, habsorb, -⟩ := exec_phase_cases h
    · exact .inl (e.trans hp)
    · exact .inr ⟨e, performs_init_iff.mp hinit⟩
    · exact absurd habsorb not_absorb
  · obtain ⟨cnt, rfl⟩ | rfl := hi
    · exact badPhase_of_clear he (exec_absorb_outside_absorb cnt hr not_absorb) h
    · exact badPhase_of_clear he (exec_final_outside_absorb hr not_absorb) h

/-! ### The visible fields while the engine runs (R61, R256) -/

/-- The fields of STATUS above BUSY (R36). -/
theorem statusWord_above_busy (s : State) : s.statusWord.extractLsb' 1 31 =
    0#18 ++ s.fill ++ s.errcode.code ++ BitVec.ofBool s.err ++ s.phase.code :=
  BitVec.extractLsb'_append_eq_left

theorem engineTransition_status (s : State) :
    s.engineTransition.statusWord.extractLsb' 1 31 = s.statusWord.extractLsb' 1 31 := by
  simp only [statusWord_above_busy, State.engineTransition_fill, State.engineTransition_errcode,
    State.engineTransition_err, State.engineTransition_phase]

/-- STATUS does not show the schedule. -/
theorem nextTurn_statusWord (s : State) : s.nextTurn.2.statusWord = s.statusWord := by
  rw [nextTurn_eq_surround]; rfl

theorem step_of_engine (h : s.nextTurn.1 = .engine) : step s = .next s.nextTurn.2.engineTransition := by
  rw [step, h, runTurn]

/-- FINAL shows PHASE = DONE and FILL = 0 at once: its bytes end a block (R109). -/
theorem commandEffect_final_visible (hp : s.phase = .absorb) :
    (commandEffect .final s).phase = .done ∧ (commandEffect .final s).fill = 0 := by
  rw [commandEffect, finalEffect_eq s hp]
  exact ⟨rfl, (appendBytes_fill _ s).trans (finalBytes_fill s.fill s.bitlen)⟩

/-- Settles O46: a transition leaves the fields STATUS shows but BUSY, and an accepted FINAL has set them. -/
theorem engineLeavesTheVisibleFields : Obligations.EngineLeavesTheVisibleFields := by
  refine ⟨fun s t hturn h => ?_, fun s hr hp => ?_⟩
  · cases (step_of_engine hturn).symm.trans h
    have hstatus : s.nextTurn.2.engineTransition.statusWord.extractLsb' 1 31 = s.statusWord.extractLsb' 1 31 := by
      rw [engineTransition_status, nextTurn_statusWord]
    refine ⟨?_, ?_, ?_, ?_, ?_, ?_, ?_, ?_, ?_, hstatus⟩ <;> simp
  · have hbusy : (commandEffect .final s).busy = true := (commandEffect_busy_iff .final hr.2).mpr ⟨hp, .inl rfl⟩
    obtain ⟨hphase, hfill⟩ := commandEffect_final_visible hp
    obtain ⟨-, sphase, -, -, sfill, -⟩ := statusWord_fields ((commandEffect .final s).complete .written)
    exact ⟨_, exec_command_of_ready .final hr, hbusy, sphase.trans (congrArg Phase.code hphase), sfill.trans hfill⟩

end Sys2Proof.Machine
end
